-- ==== Sys2Proof/Word.lean ====
section
/-! DEFINITION. The widths of the block's values: a byte, a 16-bit register pair, the 14-bit
transaction word (00_scope.md R17, 30_encoding.md R90). Every value is unsigned. -/

namespace Sys2Proof

/-- An 8-bit value: a register, a buffer byte, write data (10_state.md R32, R33). -/
abbrev Byte := BitVec 8

/-- A 16-bit value assembled from two registers: `ADDR`, `LEN`, `BPTR` (20_memory.md R75). -/
abbrev Half := BitVec 16

/-- A register offset, 0x0 to 0xF (10_state.md R33). -/
abbrev Offset := BitVec 4

/-- The transaction word `op` of one cycle, bits 13 to 0 (30_encoding.md R90). -/
abbrev OpWord := BitVec 14

end Sys2Proof
end

