-- ==== Sys2Proof/Config.lean ====
section
/-! DEFINITION. The parameters of one block (00_scope.md R8 to R15), the legal and the conforming
configurations, and the values the spec leaves open: the draws (R26) and `BASE` (R15). -/

namespace Sys2Proof

/-- The parameters fixed per block (00_scope.md R8 to R13, 92_eei_decisions.md D27). They stand in
`State` unchanged by every step, so that a statement about all states is one about all
configurations (log 6, DESIGN CHOICE, safe). -/
structure Config where
  /-- which of the platform's instances of the block this is (60_exceptions.md R208; log 17) -/
  inst    : Nat
  /-- `CLK_HZ`, the clock frequency in hertz (R8) -/
  clkHz   : Nat
  /-- `T0H`, cycles a 0-bit is high (R9) -/
  t0h     : Nat
  /-- `T1H`, cycles a 1-bit is high (R9) -/
  t1h     : Nat
  /-- `TBIT`, cycles of a bit slot (R9) -/
  tbit    : Nat
  /-- `TRAIL`, cycles of the trailer (R11) -/
  trail   : Nat
  /-- `NUM_PINS`, the number of pulse outputs (R12) -/
  numPins : Nat
  /-- `BUF_SIZE`, the bytes of buffer RAM (R13) -/
  bufSize : Nat
  deriving DecidableEq, Repr

namespace Config

/-- The defaults the spec states (00_scope.md R8, R9, R11, R12, R13), of instance 0 (log 17). -/
def default : Config where
  inst    := 0
  clkHz   := 16000000
  t0h     := 4
  t1h     := 10
  tbit    := 14
  trail   := 4800
  numPins := 2
  bufSize := 519

/-- The legal ranges (00_scope.md R9, R11, R12, R13; 93_implementation_defined.md S10). -/
abbrev Legal (c : Config) : Prop :=
  1 ≤ c.t0h ∧ c.t0h < c.t1h ∧ c.t1h < c.tbit ∧ 1 ≤ c.trail ∧
    1 ≤ c.numPins ∧ c.numPins ≤ 8 ∧ 1 ≤ c.bufSize ∧ c.bufSize ≤ 65535

/-- `n` cycles last between `lo` and `hi` nanoseconds at this clock; multiplied out, so no
rounding (00_scope.md R8, R10). -/
abbrev Lasts (c : Config) (n lo hi : Nat) : Prop :=
  lo * c.clkHz ≤ n * 1000000000 ∧ n * 1000000000 ≤ hi * c.clkHz

/-- The ratio `a / b` lies between 2.5 and 4.5, multiplied out (00_scope.md R10). -/
abbrev RatioHolds (a b : Nat) : Prop := 5 * b ≤ 2 * a ∧ 2 * a ≤ 9 * b

/-- The conformance band (00_scope.md R10). No rule of the engine depends on it (R10,
93_implementation_defined.md S9). -/
abbrev Conforming (c : Config) : Prop :=
  c.Lasts c.t0h 250 375 ∧ c.Lasts c.t1h 625 1125 ∧
    c.Lasts (c.tbit - c.t1h) 250 375 ∧ c.Lasts (c.tbit - c.t0h) 625 1125 ∧
    RatioHolds c.t1h c.t0h ∧ RatioHolds (c.tbit - c.t0h) (c.tbit - c.t1h)

/-- `PH_W`, the width of the phase counter (00_scope.md R16). No host-visible value depends on
it. -/
def phaseBits (c : Config) : Nat := Nat.clog 2 c.tbit

/-- `TC_W`, the width of the trailer counter (00_scope.md R16). -/
def trailerBits (c : Config) : Nat := max 1 (Nat.clog 2 c.trail)

/-- FREE VALUE: the byte the host's `BDATA` read of an unwritten buffer byte of instance `n` returns
in cycle `k` (00_scope.md R26, 20_memory.md R72; log 4, log 5, log 17, safe). No value of it is
provable. -/
opaque hostDraw (n k : Nat) : Byte

/-- FREE VALUE: the byte an engine load of an unwritten buffer byte of instance `n` returns in cycle
`k` (00_scope.md R26, 20_memory.md R72; log 4, log 5, log 17, safe). -/
opaque engineDraw (n k : Nat) : Byte

/-- FREE VALUE: the `BASE` of instance `n`, where the platform puts its register window (00_scope.md
R15, 60_exceptions.md R208, 92_eei_decisions.md D23, OPEN; log 7, log 17, safe). -/
opaque platformBase (n : Nat) : Nat

/-- `BASE` of this instance (00_scope.md R15, 60_exceptions.md R208). -/
def base (c : Config) : Nat := platformBase c.inst

end Config

end Sys2Proof
end

