-- ==== Sys2Proof/Syntax.lean ====
section
/-! DEFINITION. The bus transactions, one constructor per row of spec/opcode_table.json (27 rows,
25 mnemonics: `RD_RSVD` and `WR_RSVD` have two rows each). -/

namespace Sys2Proof

/-- A bus transaction (30_encoding.md R94). A bit the spec calls ignored (R96) is no operand,
except the write data `D` that 40_register_access.md R133 and R135 name as an operand without
effect (log 14). -/
inductive Instr where
  /-- `NOP`, an idle cycle (40_register_access.md R111) -/
  | nop
  /-- `RD_CTRL` (R112) -/
  | rdCtrl
  /-- `WR_CTRL D` (R113) -/
  | wrCtrl (d : Byte)
  /-- `RD_STATUS` (R114) -/
  | rdStatus
  /-- `WR_STATUS D` (R115) -/
  | wrStatus (d : Byte)
  /-- `RD_PINSEL` (R116) -/
  | rdPinsel
  /-- `WR_PINSEL D` (R117) -/
  | wrPinsel (d : Byte)
  /-- `RD_ADDR_L` (R118) -/
  | rdAddrL
  /-- `WR_ADDR_L D` (R119) -/
  | wrAddrL (d : Byte)
  /-- `RD_ADDR_H` (R120) -/
  | rdAddrH
  /-- `WR_ADDR_H D` (R121) -/
  | wrAddrH (d : Byte)
  /-- `RD_LEN_L` (R122) -/
  | rdLenL
  /-- `WR_LEN_L D` (R123) -/
  | wrLenL (d : Byte)
  /-- `RD_LEN_H` (R124) -/
  | rdLenH
  /-- `WR_LEN_H D` (R125) -/
  | wrLenH (d : Byte)
  /-- `RD_BPTR_L` (R126) -/
  | rdBptrL
  /-- `WR_BPTR_L D` (R127) -/
  | wrBptrL (d : Byte)
  /-- `RD_BPTR_H` (R128) -/
  | rdBptrH
  /-- `WR_BPTR_H D` (R129) -/
  | wrBptrH (d : Byte)
  /-- `RD_BDATA` (R130) -/
  | rdBdata
  /-- `WR_BDATA D` (R131) -/
  | wrBdata (d : Byte)
  /-- `RD_FCAUSE` (R132) -/
  | rdFcause
  /-- `WR_FCAUSE D` (R133) -/
  | wrFcause (d : Byte)
  /-- `RD_RSVD`, the row of offset 0xB (R134) -/
  | rdRsvdB
  /-- `RD_RSVD`, the row of offsets 0xC to 0xF (R134) -/
  | rdRsvdHigh (a : Offset)
  /-- `WR_RSVD D`, the row of offset 0xB (R135) -/
  | wrRsvdB (d : Byte)
  /-- `WR_RSVD D`, the row of offsets 0xC to 0xF (R135) -/
  | wrRsvdHigh (a : Offset) (d : Byte)
  deriving DecidableEq, Repr

end Sys2Proof
end

