-- ==== Sys2Proof/WellFormed.lean ====
section
/-! DEFINITION. Which instructions have a word: the offset operand of the two rows that hold four
offsets each lies in 0xC to 0xF (40_register_access.md R134, R135; 30_encoding.md R94). Every
other operand is a field that admits each of its values. -/

namespace Sys2Proof

/-- `a` is one of the offsets 0xC to 0xF, the rows with match bits `11xx` (30_encoding.md R94). -/
def highReserved (a : Offset) : Bool := decide (12 ≤ a.toNat)

/-- The instruction stands for words of its row. -/
def Instr.wf : Instr → Bool
  | .nop => true
  | .rdCtrl => true
  | .wrCtrl _ => true
  | .rdStatus => true
  | .wrStatus _ => true
  | .rdPinsel => true
  | .wrPinsel _ => true
  | .rdAddrL => true
  | .wrAddrL _ => true
  | .rdAddrH => true
  | .wrAddrH _ => true
  | .rdLenL => true
  | .wrLenL _ => true
  | .rdLenH => true
  | .wrLenH _ => true
  | .rdBptrL => true
  | .wrBptrL _ => true
  | .rdBptrH => true
  | .wrBptrH _ => true
  | .rdBdata => true
  | .wrBdata _ => true
  | .rdFcause => true
  | .wrFcause _ => true
  | .rdRsvdB => true
  | .rdRsvdHigh a => highReserved a
  | .wrRsvdB _ => true
  | .wrRsvdHigh a _ => highReserved a

end Sys2Proof
end

