-- ==== Sys2Proof/Decode.lean ====
section
/-! DEFINITION. The transaction word, its decoder (30_encoding.md R93), the encoder, and the opcode
map as rows of match and mask (R94). Decoding is total on words and, on bytes, rejects by name. -/

namespace Sys2Proof

/-- The word `op = (bus_v, bus_we, bus_addr, bus_wdata)` as the block's bus inputs form it
(30_encoding.md R90). -/
def busWord (v w : Bool) (a : Offset) (d : Byte) : OpWord :=
  BitVec.ofBool v ++ BitVec.ofBool w ++ a ++ d

/-- Field `V`, bit 13 (30_encoding.md R91). -/
def opValid (op : OpWord) : Bool := op.getLsbD 13

/-- Field `W`, bit 12 (30_encoding.md R91). -/
def opWrite (op : OpWord) : Bool := op.getLsbD 12

/-- Field `A`, bits 11 to 8 (30_encoding.md R91). -/
def opOffset (op : OpWord) : Offset := op.extractLsb' 8 4

/-- Field `D`, bits 7 to 0 (30_encoding.md R91). -/
def opData (op : OpWord) : Byte := op.extractLsb' 0 8

/-- The READ transaction of an offset (30_encoding.md R94). -/
def readOf (a : Offset) : Instr :=
  match a.toNat with
  | 0 => .rdCtrl
  | 1 => .rdStatus
  | 2 => .rdPinsel
  | 3 => .rdAddrL
  | 4 => .rdAddrH
  | 5 => .rdLenL
  | 6 => .rdLenH
  | 7 => .rdBptrL
  | 8 => .rdBptrH
  | 9 => .rdBdata
  | 10 => .rdFcause
  | 11 => .rdRsvdB
  | _ => .rdRsvdHigh a

/-- The WRITE transaction of an offset with data (30_encoding.md R94). -/
def writeOf (a : Offset) (d : Byte) : Instr :=
  match a.toNat with
  | 0 => .wrCtrl d
  | 1 => .wrStatus d
  | 2 => .wrPinsel d
  | 3 => .wrAddrL d
  | 4 => .wrAddrH d
  | 5 => .wrLenL d
  | 6 => .wrLenH d
  | 7 => .wrBptrL d
  | 8 => .wrBptrH d
  | 9 => .wrBdata d
  | 10 => .wrFcause d
  | 11 => .wrRsvdB d
  | _ => .wrRsvdHigh a d

/-- Decode, total on every 14-bit word (30_encoding.md R93, R95). -/
def decodeOp (op : OpWord) : Instr :=
  if opValid op then
    if opWrite op then writeOf (opOffset op) (opData op) else readOf (opOffset op)
  else .nop

/-- Why bytes are no transaction word. -/
inductive DecodeError where
  /-- fewer than the two bytes that hold one 14-bit word -/
  | truncated
  /-- bit 14 or 15 is set: the block has no such bus input (10_state.md R32) -/
  | beyondBit13
  deriving DecidableEq, Repr

/-- Decode from bytes: a word in two bytes, the low one first, the two bits above bit 13 zero
(log 13, DESIGN CHOICE: the spec stores words nowhere). Answers the instruction and the rest. -/
def decodeBytes : List Byte → Except DecodeError (Instr × List Byte)
  | lo :: hi :: rest =>
    if hi.toNat < 64 then .ok (decodeOp ((hi ++ lo).setWidth 14), rest) else .error .beyondBit13
  | _ => .error .truncated

/-- The instruction the decoder reads from a word of `nbits` bits, numbered as
spec/opcode_table.json numbers them; the bits at and above `nbits` are zero. -/
def decodeTableWord (nbits w : Nat) : Option Instr :=
  if w % 2 ^ nbits < 2 ^ 16 then
    match decodeBytes [BitVec.ofNat 8 (w % 2 ^ nbits), BitVec.ofNat 8 (w % 2 ^ nbits / 256)] with
    | .ok (i, _) => some i
    | .error _ => none
  else none

/-- A read word: `V = 1`, `W = 0`, the ignored data bits zero (30_encoding.md R94, R98). -/
def readWord (a : Offset) : OpWord := busWord true false a 0

/-- A write word: `V = 1`, `W = 1` (30_encoding.md R94, R98). -/
def writeWord (a : Offset) (d : Byte) : OpWord := busWord true true a d

/-- The canonical word of an instruction: bits the spec calls ignored are zero (30_encoding.md R94,
R98; 40_register_access.md R111 for `NOP`). -/
def encode : Instr → OpWord
  | .nop => 0
  | .rdCtrl => readWord 0x0
  | .wrCtrl d => writeWord 0x0 d
  | .rdStatus => readWord 0x1
  | .wrStatus d => writeWord 0x1 d
  | .rdPinsel => readWord 0x2
  | .wrPinsel d => writeWord 0x2 d
  | .rdAddrL => readWord 0x3
  | .wrAddrL d => writeWord 0x3 d
  | .rdAddrH => readWord 0x4
  | .wrAddrH d => writeWord 0x4 d
  | .rdLenL => readWord 0x5
  | .wrLenL d => writeWord 0x5 d
  | .rdLenH => readWord 0x6
  | .wrLenH d => writeWord 0x6 d
  | .rdBptrL => readWord 0x7
  | .wrBptrL d => writeWord 0x7 d
  | .rdBptrH => readWord 0x8
  | .wrBptrH d => writeWord 0x8 d
  | .rdBdata => readWord 0x9
  | .wrBdata d => writeWord 0x9 d
  | .rdFcause => readWord 0xA
  | .wrFcause d => writeWord 0xA d
  | .rdRsvdB => readWord 0xB
  | .rdRsvdHigh a => readWord a
  | .wrRsvdB d => writeWord 0xB d
  | .wrRsvdHigh a d => writeWord a d

/-- The canonical word as the two bytes `decodeBytes` reads (log 13). -/
def encodeBytes (i : Instr) : List Byte :=
  [(encode i).setWidth 8, ((encode i) >>> 8).setWidth 8]

/-- The row of the opcode map an instruction belongs to (30_encoding.md R94): a name for each of the
27 rows, in the map's order. -/
inductive Row where
  | nop | rdCtrl | wrCtrl | rdStatus | wrStatus | rdPinsel | wrPinsel | rdAddrL | wrAddrL
  | rdAddrH | wrAddrH | rdLenL | wrLenL | rdLenH | wrLenH | rdBptrL | wrBptrL | rdBptrH | wrBptrH
  | rdBdata | wrBdata | rdFcause | wrFcause | rdRsvdB | rdRsvdHigh | wrRsvdB | wrRsvdHigh
  deriving DecidableEq, Repr

/-- One line of the opcode map. -/
structure OpRow where
  row      : Row
  mnemonic : String
  fixed    : OpWord
  mask     : OpWord
  deriving DecidableEq, Repr

/-- A word selects a row when `op & mask = match` (30_encoding.md R94). -/
def OpRow.selects (r : OpRow) (op : OpWord) : Bool := op &&& r.mask == r.fixed

/-- The read rows of the opcode map (30_encoding.md R94). -/
def readRows : List OpRow :=
  [⟨.rdCtrl, "RD_CTRL", 0x2000, 0x3F00⟩, ⟨.rdStatus, "RD_STATUS", 0x2100, 0x3F00⟩,
   ⟨.rdPinsel, "RD_PINSEL", 0x2200, 0x3F00⟩, ⟨.rdAddrL, "RD_ADDR_L", 0x2300, 0x3F00⟩,
   ⟨.rdAddrH, "RD_ADDR_H", 0x2400, 0x3F00⟩, ⟨.rdLenL, "RD_LEN_L", 0x2500, 0x3F00⟩,
   ⟨.rdLenH, "RD_LEN_H", 0x2600, 0x3F00⟩, ⟨.rdBptrL, "RD_BPTR_L", 0x2700, 0x3F00⟩,
   ⟨.rdBptrH, "RD_BPTR_H", 0x2800, 0x3F00⟩, ⟨.rdBdata, "RD_BDATA", 0x2900, 0x3F00⟩,
   ⟨.rdFcause, "RD_FCAUSE", 0x2A00, 0x3F00⟩, ⟨.rdRsvdB, "RD_RSVD", 0x2B00, 0x3F00⟩,
   ⟨.rdRsvdHigh, "RD_RSVD", 0x2C00, 0x3C00⟩]

/-- The write rows of the opcode map (30_encoding.md R94). -/
def writeRows : List OpRow :=
  [⟨.wrCtrl, "WR_CTRL", 0x3000, 0x3F00⟩, ⟨.wrStatus, "WR_STATUS", 0x3100, 0x3F00⟩,
   ⟨.wrPinsel, "WR_PINSEL", 0x3200, 0x3F00⟩, ⟨.wrAddrL, "WR_ADDR_L", 0x3300, 0x3F00⟩,
   ⟨.wrAddrH, "WR_ADDR_H", 0x3400, 0x3F00⟩, ⟨.wrLenL, "WR_LEN_L", 0x3500, 0x3F00⟩,
   ⟨.wrLenH, "WR_LEN_H", 0x3600, 0x3F00⟩, ⟨.wrBptrL, "WR_BPTR_L", 0x3700, 0x3F00⟩,
   ⟨.wrBptrH, "WR_BPTR_H", 0x3800, 0x3F00⟩, ⟨.wrBdata, "WR_BDATA", 0x3900, 0x3F00⟩,
   ⟨.wrFcause, "WR_FCAUSE", 0x3A00, 0x3F00⟩, ⟨.wrRsvdB, "WR_RSVD", 0x3B00, 0x3F00⟩,
   ⟨.wrRsvdHigh, "WR_RSVD", 0x3C00, 0x3C00⟩]

/-- The opcode map, all 27 rows (30_encoding.md R94). -/
def opcodeMap : List OpRow := ⟨.nop, "NOP", 0x0000, 0x2000⟩ :: readRows ++ writeRows

/-- The row of an instruction. -/
def Instr.row : Instr → Row
  | .nop => .nop
  | .rdCtrl => .rdCtrl
  | .wrCtrl _ => .wrCtrl
  | .rdStatus => .rdStatus
  | .wrStatus _ => .wrStatus
  | .rdPinsel => .rdPinsel
  | .wrPinsel _ => .wrPinsel
  | .rdAddrL => .rdAddrL
  | .wrAddrL _ => .wrAddrL
  | .rdAddrH => .rdAddrH
  | .wrAddrH _ => .wrAddrH
  | .rdLenL => .rdLenL
  | .wrLenL _ => .wrLenL
  | .rdLenH => .rdLenH
  | .wrLenH _ => .wrLenH
  | .rdBptrL => .rdBptrL
  | .wrBptrL _ => .wrBptrL
  | .rdBptrH => .rdBptrH
  | .wrBptrH _ => .wrBptrH
  | .rdBdata => .rdBdata
  | .wrBdata _ => .wrBdata
  | .rdFcause => .rdFcause
  | .wrFcause _ => .wrFcause
  | .rdRsvdB => .rdRsvdB
  | .rdRsvdHigh _ => .rdRsvdHigh
  | .wrRsvdB _ => .wrRsvdB
  | .wrRsvdHigh _ _ => .wrRsvdHigh

end Sys2Proof
end

