-- ==== Sys2Proof/Machine/State.lean ====
section
/-! DEFINITION. The state of the block (10_state.md R59) with its configuration and its ports as
plain data, the state right after reset (R60), and the reasons a step can stop. -/

namespace Sys2Proof.Machine

/-- `st`, the engine state (10_state.md R47). -/
inductive Engine where
  /-- `IDLE`: no transmission -/
  | idle
  /-- `SHIFT`: sending bit slots -/
  | shift
  /-- `TRAIL`: holding the pin low after the last bit slot -/
  | trail
  /-- `HALT`: halted by a fault -/
  | halt
  deriving DecidableEq, Repr

/-- `FCAUSE.CODE` (10_state.md R41, 60_exceptions.md R190); the codes 5 to 7 are never produced
(R195; log 8, DEDUCED, safe). -/
inductive FaultCode where
  /-- 0 `NONE` -/
  | none
  /-- 1 `BUF_BOUNDS` -/
  | bufBounds
  /-- 2 `BUSY_GO` -/
  | busyGo
  /-- 3 `RANGE` -/
  | range
  /-- 4 `BAD_PIN` -/
  | badPin
  deriving DecidableEq, Repr

/-- The input ports of one cycle: `rst` and the transaction word (10_state.md R32, 30_encoding.md
R90). -/
structure Input where
  rst : Bool
  op  : OpWord
  deriving DecidableEq, Repr

/-- A cycle in which the host does nothing: `rst = 0`, `V = 0` (00_scope.md R21). -/
def Input.idle : Input := ⟨false, 0⟩

/-- The state. The fields from `irqEn` to `buf` are the complete state of 10_state.md R59; the
others carry the configuration and the ports, which a step from state to state has to hold. -/
structure State where
  /-- the parameters, changed by no step (00_scope.md R8 to R13; log 6) -/
  cfg    : Config
  /-- `CTRL.IRQ_EN` (R34) -/
  irqEn  : Bool
  /-- `STATUS.DONE` (R35, R45) -/
  done   : Bool
  /-- `PINSEL.PIN` (R36) -/
  pin    : BitVec 3
  /-- `ADDR` (R37) -/
  addr   : Half
  /-- `LEN` (R38) -/
  len    : Half
  /-- `BPTR` (R39) -/
  bptr   : Half
  /-- `FCAUSE.CODE` (R41) -/
  fcause : FaultCode
  /-- `st` (R47) -/
  st     : Engine
  /-- `sh`, the byte being sent, its current bit in bit 7 (R48) -/
  sh     : Byte
  /-- `nb`, the index of the current bit, 0 for the most significant (R49) -/
  nb     : BitVec 3
  /-- `ph`, the phase of this cycle in its bit slot (R50; log 9) -/
  ph     : Nat
  /-- `rem`, bytes not yet loaded (R51) -/
  rem    : Half
  /-- `ptr`, the buffer address of the next byte to load (R52) -/
  ptr    : Half
  /-- `lpin`, the pin of the transmission in progress (R53) -/
  lpin   : BitVec 3
  /-- `tcnt`, trailer cycles already spent (R54; log 9) -/
  tcnt   : Nat
  /-- the buffer RAM: the written bytes, addresses strictly rising (R58, 20_memory.md R72) -/
  buf    : List Host.Cell
  /-- the model's own: the input ports of this cycle, first, and of the cycles after it; past the
  end every cycle is idle (00_scope.md R6; log 1, DESIGN CHOICE, unsafe) -/
  inputs : List Input
  /-- the output port `rdata` as the last stepped cycle drove it (R57; log 3, DESIGN CHOICE) -/
  rdata  : Byte
  /-- the model's own: cycles stepped so far, the index of the draws (00_scope.md R26; log 4) -/
  draws  : Nat
  deriving DecidableEq, Repr

/-- The input ports in this cycle: the first of `inputs`, idle when the host has no more (log 1). -/
def State.input (s : State) : Input := s.inputs.headD Input.idle

/-- The state right after reset (10_state.md R60): every register and working register 0, `IDLE`,
every buffer byte unwritten as after power-up (20_memory.md R72), the default configuration. The
model has no earlier cycle (70_reset_and_hazards.md R222; log 12). `inputs`, `rdata` and `draws`
are the model's own (log 1, log 3, log 4). -/
def State.reset : State where
  cfg    := Config.default
  irqEn  := false
  done   := false
  pin    := 0
  addr   := 0
  len    := 0
  bptr   := 0
  fcause := .none
  st     := .idle
  sh     := 0
  nb     := 0
  ph     := 0
  rem    := 0
  ptr    := 0
  lpin   := 0
  tcnt   := 0
  buf    := []
  inputs := []
  rdata  := 0
  draws  := 0

/-- Why the machine stops where the spec gives it no next state. The block's own four faults are
no such stop: they lead to the state `HALT` (60_exceptions.md R197). -/
inductive Fault where
  /-- Raised by the engine step, by no instruction, when it would load a byte from an address
  `>= BUF_SIZE`: such addresses do not exist (20_memory.md R70) and no reachable state does it
  (10_state.md R52, R61). Safe (log 10). -/
  | engineLoadOutsideBuffer
  deriving DecidableEq, Repr

/-- Why the machine has no meaning for a state. -/
inductive Refusal where
  /-- Raised by an arm of `exec` for an instruction without a meaning; no arm does. Safe. -/
  | notModelled (mnemonic : String)
  /-- Raised by `step`, by no instruction, in a state whose configuration is outside the legal
  ranges: the spec has it refused (93_implementation_defined.md S10). Safe (log 6). -/
  | illegalConfiguration
  deriving DecidableEq, Repr

end Sys2Proof.Machine
end

