-- ==== Sys2Proof/Machine/Flags.lean ====
section
/-! DEFINITION. The status flags that are functions of the state (10_state.md R44, R46) and the
outputs `irq` and `dout` of a cycle (R55, R56). -/

namespace Sys2Proof.Machine

/-- `STATUS.BUSY`: the engine is in `SHIFT` or `TRAIL` (10_state.md R44). -/
def State.busy (s : State) : Bool := s.st == .shift || s.st == .trail

/-- `STATUS.FAULT`: the block is halted (10_state.md R46). -/
def State.fault (s : State) : Bool := s.st == .halt

/-- The interrupt output (10_state.md R56, 60_exceptions.md R201). -/
def State.irq (s : State) : Bool := s.irqEn && (s.done || s.fault)

/-- The bit of the current bit slot, `sh[7]` (10_state.md R48). -/
def State.currentBit (s : State) : Bool := s.sh.getLsbD 7

/-- The level of the current bit slot at the current phase (41_transmit_engine.md R155). -/
def State.slotHigh (s : State) : Bool :=
  decide (s.ph < s.cfg.t0h) || (decide (s.ph < s.cfg.t1h) && s.currentBit)

/-- The pulse output `dout[i]` of this cycle (10_state.md R55); there is no pin at or above
`NUM_PINS` (00_scope.md R12), for which this answers low. -/
def State.dout (s : State) (i : Nat) : Bool :=
  decide (i < s.cfg.numPins) && s.st == .shift && i == s.lpin.toNat && s.slotHigh

/-- All pulse outputs of this cycle, pin 0 first (10_state.md R32). -/
def State.pins (s : State) : List Bool := (List.range s.cfg.numPins).map s.dout

end Sys2Proof.Machine
end

