-- ==== Sys2Proof/Machine/Operands.lean ====
section
/-! DEFINITION. The registers as the bus sees them: the byte each one reads as, the fields a write
takes from its data (10_state.md R33 to R43, 30_encoding.md R92), and the 16-bit register pairs
(20_memory.md R75). -/

namespace Sys2Proof.Machine

/-- The three 16-bit values that two registers hold each (20_memory.md R75). -/
inductive RegPair where
  | addr | len | bptr
  deriving DecidableEq, Repr

/-- The value both halves hold. -/
def RegPair.get (p : RegPair) (s : State) : Half :=
  match p with
  | .addr => s.addr
  | .len => s.len
  | .bptr => s.bptr

/-- Give the pair a value. -/
def RegPair.set (p : RegPair) (v : Half) (s : State) : State :=
  match p with
  | .addr => { s with addr := v }
  | .len => { s with len := v }
  | .bptr => { s with bptr := v }

/-- Bits 7 to 0, the `_L` register (20_memory.md R75). -/
def lowByte (v : Half) : Byte := v.extractLsb' 0 8

/-- Bits 15 to 8, the `_H` register (20_memory.md R75). -/
def highByte (v : Half) : Byte := v.extractLsb' 8 8

/-- The `_H` half followed by the `_L` half (00_scope.md R17). -/
def joinBytes (hi lo : Byte) : Half := hi ++ lo

/-- Write the `_L` register of a pair; the other half keeps its value (40_register_access.md R119,
R123, R127). -/
def RegPair.setLow (p : RegPair) (d : Byte) (s : State) : State :=
  p.set (joinBytes (highByte (p.get s)) d) s

/-- Write the `_H` register of a pair; the other half keeps its value (40_register_access.md R121,
R125, R129). -/
def RegPair.setHigh (p : RegPair) (d : Byte) (s : State) : State :=
  p.set (joinBytes d (lowByte (p.get s))) s

/-- `D[0]` of a `CTRL` write, the start command (10_state.md R34). -/
def goBit (d : Byte) : Bool := d.getLsbD 0

/-- `D[1]` of a `CTRL` write, `IRQ_EN` (10_state.md R34). -/
def irqEnBit (d : Byte) : Bool := d.getLsbD 1

/-- `D[1]` of a `STATUS` write, write one to clear `DONE` (10_state.md R35). -/
def doneClearBit (d : Byte) : Bool := d.getLsbD 1

/-- `D[2:0]` of a `PINSEL` write (10_state.md R36). -/
def pinField (d : Byte) : BitVec 3 := d.extractLsb' 0 3

/-- Give `CTRL.IRQ_EN` a value (10_state.md R34). -/
def State.setIrqEn (b : Bool) (s : State) : State := { s with irqEn := b }

/-- Give `STATUS.DONE` a value (10_state.md R45). -/
def State.setDone (b : Bool) (s : State) : State := { s with done := b }

/-- Give `PINSEL.PIN` a value (10_state.md R36). -/
def State.setPin (p : BitVec 3) (s : State) : State := { s with pin := p }

/-- `CTRL` as read: six zeros, `IRQ_EN`, zero (10_state.md R34). -/
def ctrlByte (s : State) : Byte := (0 : BitVec 6) ++ BitVec.ofBool s.irqEn ++ (0 : BitVec 1)

/-- `STATUS` as read: five zeros, `FAULT`, `DONE`, `BUSY` (10_state.md R35). -/
def statusByte (s : State) : Byte :=
  (0 : BitVec 5) ++ BitVec.ofBool s.fault ++ BitVec.ofBool s.done ++ BitVec.ofBool s.busy

/-- `PINSEL` as read: five zeros, `PIN` (10_state.md R36). -/
def pinselByte (s : State) : Byte := (0 : BitVec 5) ++ s.pin

/-- The three bits of a fault code (10_state.md R41). -/
def FaultCode.bits : FaultCode → BitVec 3
  | .none => 0
  | .bufBounds => 1
  | .busyGo => 2
  | .range => 3
  | .badPin => 4

/-- `FCAUSE` as read: five zeros, `CODE` (10_state.md R41). -/
def fcauseByte (s : State) : Byte := (0 : BitVec 5) ++ s.fcause.bits

/-- Where the host's address map has a register of this instance: its offset from the instance's
own `BASE` (00_scope.md R15, 10_state.md R33, 60_exceptions.md R208; log 7). The block itself
decodes only the offset. -/
def hostAddress (s : State) (a : Offset) : Nat := s.cfg.base + a.toNat

end Sys2Proof.Machine
end

