-- ==== Sys2Proof/Machine/Ops.lean ====
section
/-! DEFINITION. The named operations the meanings share: the buffer RAM, its reads with draws, the
shape of a read and of a write transaction, entering the halted state, and reset, which alone
leaves it. -/

namespace Sys2Proof.Machine

/-- The byte a buffer address holds; none when it is unwritten (20_memory.md R72). -/
def Memory.read (a : Nat) : List Host.Cell → Option Byte
  | [] => none
  | (b, v) :: m => if a = b then some v else Memory.read a m

/-- Store a byte: the address becomes written, its place in the rising order is kept (20_memory.md
R72, 40_register_access.md R131). -/
def Memory.write (a : Nat) (v : Byte) : List Host.Cell → List Host.Cell
  | [] => [(a, v)]
  | (b, w) :: m =>
    if a < b then (a, v) :: (b, w) :: m
    else if a = b then (a, v) :: m
    else (b, w) :: Memory.write a v m

/-- The addresses are at least `lo`, strictly rising and below `size`. -/
def Memory.wfFrom (lo size : Nat) : List Host.Cell → Bool
  | [] => true
  | (a, _) :: m => decide (lo ≤ a) && decide (a < size) && Memory.wfFrom (a + 1) size m

/-- The canonical form of the buffer: addresses strictly rising and all below `BUF_SIZE`
(20_memory.md R70). An unlisted byte is unwritten and reads as a draw, so no entry is redundant. -/
def Memory.wf (size : Nat) (m : List Host.Cell) : Bool := Memory.wfFrom 0 size m

/-- The byte the host reads at `a`: what is written there, else this cycle's host draw (20_memory.md
R72; log 4). -/
def State.hostLoad (s : State) (a : Half) : Byte :=
  (Memory.read a.toNat s.buf).getD (Config.hostDraw s.cfg.inst s.draws)

/-- The byte the engine loads at `a`: what is written there, else this cycle's engine draw
(20_memory.md R72; log 4, log 5). -/
def State.engineLoad (s : State) (a : Half) : Byte :=
  (Memory.read a.toNat s.buf).getD (Config.engineDraw s.cfg.inst s.draws)

/-- Drive the read data port in this cycle (10_state.md R57). -/
def State.drive (v : Byte) (s : State) : State := { s with rdata := v }

/-- TAKE A FAULT: the block is halted with the cause recorded, every other register, the buffer and
the working registers as they were (60_exceptions.md R197, R200). There is no handler, no saved
state and no return from it (R199). -/
def State.raise (c : FaultCode) (s : State) : State := { s with st := .halt, fcause := c }

/-- RESET, the only way out of `HALT` (60_exceptions.md R199): the state of 10_state.md R60, with
the buffer kept (70_reset_and_hazards.md R223); `rdata` is 0x00 (R220). The configuration, the
host's inputs and the count of the draws are no part of the block's reset (log 4, log 6). -/
def State.resetBlock (s : State) : State :=
  { State.reset with cfg := s.cfg, buf := s.buf, inputs := s.inputs, draws := s.draws }

/-- The end of the cycle on the model's own fields: the cycle's inputs are consumed, the draws
of the next cycle are fresh (log 1, log 4). -/
def State.advance (s : State) : State := { s with inputs := s.inputs.tail, draws := s.draws + 1 }

/-- A read transaction without side effect: the state stays, `rdata` is the value, in every engine
state (20_memory.md R79; 60_exceptions.md R198). -/
def answerRead (v : Byte) (s : State) : Host.Outcome State Fault Refusal := .next (s.drive v)

/-- A write transaction, and any other transaction with an effect: nothing at all in `HALT`, else
`f` (40_register_access.md R110, 60_exceptions.md R198). It drives no read data (10_state.md
R57). -/
def hostWrite (f : State → State) (s : State) : Host.Outcome State Fault Refusal :=
  .next (if s.st = .halt then s.drive 0 else f (s.drive 0))

end Sys2Proof.Machine
end

