-- ==== Sys2Proof/Machine/Engine.lean ====
section
/-! DEFINITION. The transmit engine: the start command (41_transmit_engine.md R150 to R154) and the
engine step (R155 to R163, R172), which reads the state of the cycle and says what it changes. -/

namespace Sys2Proof.Machine

/-- `ADDR + LEN` in 17 bits, so that no sum wraps (41_transmit_engine.md R150, R153). -/
def rangeEnd (s : State) : BitVec 17 := s.addr.setWidth 17 + s.len.setWidth 17

/-- `GoCheck`: the first failing check of a start command, in the spec's order
(41_transmit_engine.md R150, 60_exceptions.md R196). -/
def goCheck (s : State) : Option FaultCode :=
  if s.busy then some .busyGo
  else if s.len = 0 then none
  else if s.cfg.numPins ≤ s.pin.toNat then some .badPin
  else if s.cfg.bufSize < (rangeEnd s).toNat then some .range
  else none

/-- `ZeroStart`: a start with `LEN = 0` (41_transmit_engine.md R152). -/
def zeroStart (s : State) : State := s.setDone true

/-- `Start`: a start with `LEN >= 1` that passed the checks (41_transmit_engine.md R154). -/
def start (s : State) : State :=
  { s with
    st := .shift, sh := s.engineLoad s.addr, nb := 0, ph := 0, ptr := s.addr + 1,
    rem := s.len - 1, lpin := s.pin, done := false }

/-- `GoStart` (41_transmit_engine.md R151). -/
def goStart (s : State) : State := if s.len = 0 then zeroStart s else start s

/-- What the engine step of one cycle does (41_transmit_engine.md R172). -/
inductive EngineAct where
  /-- nothing: `IDLE`, `HALT` (R163) -/
  | hold
  /-- the next phase of the bit slot (R156) -/
  | nextPhase
  /-- the next bit of the byte (R157) -/
  | nextBit
  /-- the next byte, loaded from the buffer of this cycle (R158) -/
  | nextByte (b : Byte)
  /-- the last byte is done, the trailer begins (R159) -/
  | lastByte
  /-- one more trailer cycle spent (R161) -/
  | trailCount
  /-- the trailer ends, and with it the transmission (R162) -/
  | trailEnd
  deriving DecidableEq, Repr

/-- The engine step in `SHIFT` (41_transmit_engine.md R156 to R159). A load from an address that
does not exist stops the machine (log 10). -/
def shiftAct (s : State) : Except Fault EngineAct :=
  if s.ph < s.cfg.tbit - 1 then .ok .nextPhase
  else if s.nb.toNat < 7 then .ok .nextBit
  else if 0 < s.rem.toNat then
    if s.ptr.toNat < s.cfg.bufSize then .ok (.nextByte (s.engineLoad s.ptr))
    else .error .engineLoadOutsideBuffer
  else .ok .lastByte

/-- The engine step in `TRAIL` (41_transmit_engine.md R161, R162). -/
def trailAct (s : State) : EngineAct :=
  if s.tcnt < s.cfg.trail - 1 then .trailCount else .trailEnd

/-- `EngineStep`, read from the state of the cycle (41_transmit_engine.md R172). -/
def engineAct (s : State) : Except Fault EngineAct :=
  match s.st with
  | .idle => .ok .hold
  | .halt => .ok .hold
  | .shift => shiftAct s
  | .trail => .ok (trailAct s)

/-- Write what the engine step changes onto `t`, every value read from the state `s` of the cycle
(00_scope.md R18, 40_register_access.md R136, 41_transmit_engine.md R172). -/
def EngineAct.apply (a : EngineAct) (s t : State) : State :=
  match a with
  | .hold => t
  | .nextPhase => { t with ph := s.ph + 1 }
  | .nextBit => { t with ph := 0, nb := s.nb + 1, sh := s.sh <<< 1 }
  | .nextByte b => { t with ph := 0, nb := 0, sh := b, ptr := s.ptr + 1, rem := s.rem - 1 }
  | .lastByte => { t with st := .trail, tcnt := 0 }
  | .trailCount => { t with tcnt := s.tcnt + 1 }
  | .trailEnd => { t with st := .idle, done := true }

end Sys2Proof.Machine
end

