-- ==== Sys2Proof/Machine/Cycle.lean ====
section
/-! DEFINITION. What the step puts around a transaction: taking the word of the cycle, joining the
transaction with the engine step, and a reset cycle (40_register_access.md R136,
70_reset_and_hazards.md R220). -/

namespace Sys2Proof.Machine

/-- The transaction of this cycle (30_encoding.md R90, R93). -/
def fetch (s : State) : Instr := decodeOp s.input.op

/-- The cycle of state `s` whose transaction made `t` of it: a transaction that faulted discards the
engine step; else the engine's changes, read from `s`, are written onto `t`, so that setting
`DONE` wins over clearing it (40_register_access.md R136, 60_exceptions.md R196, R197). In `HALT`
the engine step changes nothing (41_transmit_engine.md R163). -/
def finishCycle (s t : State) : Host.Outcome State Fault Refusal :=
  if t.st = .halt then .next t.advance
  else
    match engineAct s with
    | .ok a => .next (a.apply s t).advance
    | .error f => .fault f

/-- A cycle with `rst = 1`: the transaction is discarded (70_reset_and_hazards.md R220). -/
def resetCycle (s : State) : Host.Outcome State Fault Refusal := .next s.resetBlock.advance

/-- Put an input in the place of this cycle's (log 2). -/
def State.withInput (s : State) (x : Input) : State := { s with inputs := x :: s.inputs.tail }

/-- The transaction word made of the low 14 bits of a number whose bits at and above `nbits` are
zero (log 13). -/
def opOfNat (nbits w : Nat) : OpWord := BitVec.ofNat 14 (w % 2 ^ nbits)

end Sys2Proof.Machine
end

