-- ==== Sys2Proof/Machine/Bdata.lean ====
section
/-! DEFINITION. The buffer data port, `BDATA`: a read or a write of the buffer byte at `BPTR`, which
then moves on by one (40_register_access.md R130, R131). -/

namespace Sys2Proof.Machine

/-- The buffer address a `BDATA` access reads or writes (10_state.md R39, R40). -/
def bdataAddress (s : State) : Nat := s.bptr.toNat

/-- `BPTR` lies in the buffer (60_exceptions.md R191). -/
def bptrInside (s : State) : Bool := decide (bdataAddress s < s.cfg.bufSize)

/-- The post-increment of `BPTR` (10_state.md R39). -/
def State.bumpBptr (s : State) : State := { s with bptr := s.bptr + 1 }

/-- Store a byte into the buffer at `BPTR` (40_register_access.md R131). -/
def State.storeAtBptr (d : Byte) (s : State) : State :=
  { s with buf := Memory.write (bdataAddress s) d s.buf }

/-- The effect of a `BDATA` read outside `HALT` (40_register_access.md R130). -/
def readBdata (s : State) : State :=
  if bptrInside s then (s.drive (s.hostLoad s.bptr)).bumpBptr else s.raise .bufBounds

/-- The effect of a `BDATA` write outside `HALT` (40_register_access.md R131). -/
def writeBdata (d : Byte) (s : State) : State :=
  if bptrInside s then (s.storeAtBptr d).bumpBptr else s.raise .bufBounds

/-- `RD_BDATA`; in `HALT` and when it faults, `rdata` is 0x00 (40_register_access.md R130,
60_exceptions.md R191, R198). -/
def execRdBdata (s : State) : Host.Outcome State Fault Refusal := hostWrite readBdata s

/-- `WR_BDATA` (40_register_access.md R131). -/
def execWrBdata (d : Byte) (s : State) : Host.Outcome State Fault Refusal :=
  hostWrite (writeBdata d) s

end Sys2Proof.Machine
end

