-- ==== Sys2Proof/Machine/Reads.lean ====
section
/-! DEFINITION. The idle cycle and the read transactions without side effect, one meaning each
(40_register_access.md). What the engine does in the same cycle is added by the step (R136). -/

namespace Sys2Proof.Machine

/-- `NOP` (40_register_access.md R111). -/
def execNop (s : State) : Host.Outcome State Fault Refusal := answerRead 0 s

/-- `RD_CTRL` (40_register_access.md R112). -/
def execRdCtrl (s : State) : Host.Outcome State Fault Refusal := answerRead (ctrlByte s) s

/-- `RD_STATUS` (40_register_access.md R114). -/
def execRdStatus (s : State) : Host.Outcome State Fault Refusal := answerRead (statusByte s) s

/-- `RD_PINSEL` (40_register_access.md R116). -/
def execRdPinsel (s : State) : Host.Outcome State Fault Refusal := answerRead (pinselByte s) s

/-- `RD_ADDR_L` (40_register_access.md R118). -/
def execRdAddrL (s : State) : Host.Outcome State Fault Refusal :=
  answerRead (lowByte (RegPair.addr.get s)) s

/-- `RD_ADDR_H` (40_register_access.md R120). -/
def execRdAddrH (s : State) : Host.Outcome State Fault Refusal :=
  answerRead (highByte (RegPair.addr.get s)) s

/-- `RD_LEN_L` (40_register_access.md R122). -/
def execRdLenL (s : State) : Host.Outcome State Fault Refusal :=
  answerRead (lowByte (RegPair.len.get s)) s

/-- `RD_LEN_H` (40_register_access.md R124). -/
def execRdLenH (s : State) : Host.Outcome State Fault Refusal :=
  answerRead (highByte (RegPair.len.get s)) s

/-- `RD_BPTR_L` (40_register_access.md R126). -/
def execRdBptrL (s : State) : Host.Outcome State Fault Refusal :=
  answerRead (lowByte (RegPair.bptr.get s)) s

/-- `RD_BPTR_H` (40_register_access.md R128). -/
def execRdBptrH (s : State) : Host.Outcome State Fault Refusal :=
  answerRead (highByte (RegPair.bptr.get s)) s

/-- `RD_FCAUSE` (40_register_access.md R132). -/
def execRdFcause (s : State) : Host.Outcome State Fault Refusal := answerRead (fcauseByte s) s

end Sys2Proof.Machine
end

