-- ==== Sys2Proof/Machine/Reserved.lean ====
section
/-! DEFINITION. The reserved offsets 0xB to 0xF: a read returns 0x00, a write does nothing, neither
faults (10_state.md R42, 40_register_access.md R134, R135). -/

namespace Sys2Proof.Machine

/-- `RD_RSVD` of offset 0xB (40_register_access.md R134). -/
def execRdRsvdB (s : State) : Host.Outcome State Fault Refusal := answerRead 0 s

/-- `RD_RSVD` of offsets 0xC to 0xF (40_register_access.md R134). -/
def execRdRsvdHigh (_a : Offset) (s : State) : Host.Outcome State Fault Refusal := answerRead 0 s

/-- `WR_RSVD` of offset 0xB (40_register_access.md R135). -/
def execWrRsvdB (_d : Byte) (s : State) : Host.Outcome State Fault Refusal := hostWrite id s

/-- `WR_RSVD` of offsets 0xC to 0xF (40_register_access.md R135). -/
def execWrRsvdHigh (_a : Offset) (_d : Byte) (s : State) : Host.Outcome State Fault Refusal :=
  hostWrite id s

end Sys2Proof.Machine
end

