-- ==== Sys2Proof/Machine/Writes.lean ====
section
/-! DEFINITION. The write transactions of the registers, one meaning each (40_register_access.md),
the start command among them. -/

namespace Sys2Proof.Machine

/-- The effect of a `CTRL` write outside `HALT` (40_register_access.md R113): with `D[0] = 1` the
checks, and only when they pass the new `IRQ_EN` and the start. -/
def writeCtrl (d : Byte) (s : State) : State :=
  if goBit d then
    match goCheck s with
    | some c => s.raise c
    | none => goStart (s.setIrqEn (irqEnBit d))
  else s.setIrqEn (irqEnBit d)

/-- `WR_CTRL` (40_register_access.md R113). -/
def execWrCtrl (d : Byte) (s : State) : Host.Outcome State Fault Refusal :=
  hostWrite (writeCtrl d) s

/-- The effect of a `STATUS` write outside `HALT` (40_register_access.md R115). -/
def writeStatus (d : Byte) (s : State) : State := if doneClearBit d then s.setDone false else s

/-- `WR_STATUS`: writing one to bit 1 clears `DONE`, no other bit does anything
(40_register_access.md R115). -/
def execWrStatus (d : Byte) (s : State) : Host.Outcome State Fault Refusal :=
  hostWrite (writeStatus d) s

/-- `WR_PINSEL` (40_register_access.md R117). -/
def execWrPinsel (d : Byte) (s : State) : Host.Outcome State Fault Refusal :=
  hostWrite (State.setPin (pinField d)) s

/-- `WR_ADDR_L` (40_register_access.md R119). -/
def execWrAddrL (d : Byte) (s : State) : Host.Outcome State Fault Refusal :=
  hostWrite (RegPair.addr.setLow d) s

/-- `WR_ADDR_H` (40_register_access.md R121). -/
def execWrAddrH (d : Byte) (s : State) : Host.Outcome State Fault Refusal :=
  hostWrite (RegPair.addr.setHigh d) s

/-- `WR_LEN_L` (40_register_access.md R123). -/
def execWrLenL (d : Byte) (s : State) : Host.Outcome State Fault Refusal :=
  hostWrite (RegPair.len.setLow d) s

/-- `WR_LEN_H` (40_register_access.md R125). -/
def execWrLenH (d : Byte) (s : State) : Host.Outcome State Fault Refusal :=
  hostWrite (RegPair.len.setHigh d) s

/-- `WR_BPTR_L` (40_register_access.md R127). -/
def execWrBptrL (d : Byte) (s : State) : Host.Outcome State Fault Refusal :=
  hostWrite (RegPair.bptr.setLow d) s

/-- `WR_BPTR_H` (40_register_access.md R129). -/
def execWrBptrH (d : Byte) (s : State) : Host.Outcome State Fault Refusal :=
  hostWrite (RegPair.bptr.setHigh d) s

/-- `WR_FCAUSE`: no effect (40_register_access.md R133). -/
def execWrFcause (_d : Byte) (s : State) : Host.Outcome State Fault Refusal := hostWrite id s

end Sys2Proof.Machine
end

