-- ==== Sys2Proof/Machine/Dispatch.lean ====
section
/-! DEFINITION. The transaction half of a cycle: one arm per constructor of Instr. -/

namespace Sys2Proof.Machine

/-- What the host's transaction makes of the state of its cycle (40_register_access.md). The engine's
half of the same cycle is `finishCycle` (R136). -/
def exec (i : Instr) (s : State) : Host.Outcome State Fault Refusal :=
  match i with
  | .nop => Sys2Proof.Machine.execNop s
  | .rdCtrl => Sys2Proof.Machine.execRdCtrl s
  | .wrCtrl d => Sys2Proof.Machine.execWrCtrl d s
  | .rdStatus => Sys2Proof.Machine.execRdStatus s
  | .wrStatus d => Sys2Proof.Machine.execWrStatus d s
  | .rdPinsel => Sys2Proof.Machine.execRdPinsel s
  | .wrPinsel d => Sys2Proof.Machine.execWrPinsel d s
  | .rdAddrL => Sys2Proof.Machine.execRdAddrL s
  | .wrAddrL d => Sys2Proof.Machine.execWrAddrL d s
  | .rdAddrH => Sys2Proof.Machine.execRdAddrH s
  | .wrAddrH d => Sys2Proof.Machine.execWrAddrH d s
  | .rdLenL => Sys2Proof.Machine.execRdLenL s
  | .wrLenL d => Sys2Proof.Machine.execWrLenL d s
  | .rdLenH => Sys2Proof.Machine.execRdLenH s
  | .wrLenH d => Sys2Proof.Machine.execWrLenH d s
  | .rdBptrL => Sys2Proof.Machine.execRdBptrL s
  | .wrBptrL d => Sys2Proof.Machine.execWrBptrL d s
  | .rdBptrH => Sys2Proof.Machine.execRdBptrH s
  | .wrBptrH d => Sys2Proof.Machine.execWrBptrH d s
  | .rdBdata => Sys2Proof.Machine.execRdBdata s
  | .wrBdata d => Sys2Proof.Machine.execWrBdata d s
  | .rdFcause => Sys2Proof.Machine.execRdFcause s
  | .wrFcause d => Sys2Proof.Machine.execWrFcause d s
  | .rdRsvdB => Sys2Proof.Machine.execRdRsvdB s
  | .rdRsvdHigh a => Sys2Proof.Machine.execRdRsvdHigh a s
  | .wrRsvdB d => Sys2Proof.Machine.execWrRsvdB d s
  | .wrRsvdHigh a d => Sys2Proof.Machine.execWrRsvdHigh a d s

end Sys2Proof.Machine
end

