-- ==== Sys2Proof/Machine/Step.lean ====
section
/-! DEFINITION. One clock cycle (00_scope.md R6): from the state and the inputs of a cycle to the
state of the next. -/

namespace Sys2Proof.Machine

/-- One cycle. An illegal configuration is refused (93_implementation_defined.md S10; log 6); reset
comes before everything else (70_reset_and_hazards.md R220); else the transaction and the engine
step are joined (40_register_access.md R136). -/
def step (s : State) : Host.Outcome State Fault Refusal :=
  if s.cfg.Legal then
    if s.input.rst then resetCycle s
    else
      match exec (fetch s) s with
      | .next t => finishCycle s t
      | .fault f => .fault f
      | .refused r => .refused r
  else .refused .illegalConfiguration

/-- `s` with the transaction word `w` on the bus in the cycle the next step runs, and no reset in it
(log 2). -/
def State.withFetchWord (s : State) (nbits w : Nat) : State := s.withInput ⟨false, opOfNat nbits w⟩

end Sys2Proof.Machine
end

