-- ==== Sys2Proof/Machine/HostProgram.lean ====
section
/-! DEFINITION. The host's side: the lines of a host program, the words of the pseudo-operations,
and the polling loop (30_encoding.md R98 to R100). -/

namespace Sys2Proof.Machine

/-- The register names (10_state.md R33). -/
inductive Reg where
  | ctrl | status | pinsel | addrL | addrH | lenL | lenH | bptrL | bptrH | bdata | fcause
  deriving DecidableEq, Repr

/-- The offset of a register (10_state.md R33). -/
def Reg.offset : Reg → Offset
  | .ctrl => 0x0
  | .status => 0x1
  | .pinsel => 0x2
  | .addrL => 0x3
  | .addrH => 0x4
  | .lenL => 0x5
  | .lenH => 0x6
  | .bptrL => 0x7
  | .bptrH => 0x8
  | .bdata => 0x9
  | .fcause => 0xA

/-- The `_L` register of a pair (20_memory.md R75). -/
def RegPair.lowReg : RegPair → Reg
  | .addr => .addrL
  | .len => .lenL
  | .bptr => .bptrL

/-- The `_H` register of a pair (20_memory.md R75). -/
def RegPair.highReg : RegPair → Reg
  | .addr => .addrH
  | .len => .lenH
  | .bptr => .bptrH

/-- A line of a host program that always takes the same cycles: the three of 30_encoding.md R98 and
the pseudo-operations of R99. A register is given by its offset, so that `@n` is covered. -/
inductive HostLine where
  | nop (n : Nat)
  | rd (a : Offset)
  | wr (a : Offset) (d : Byte)
  | wr16 (p : RegPair) (v : Half)
  | fill (bytes : List Byte)
  | go
  | goi
  | clrdone
  | xmit (pin : Byte) (addr len : Half)
  deriving DecidableEq, Repr

/-- `wr P_L` then `wr P_H` (30_encoding.md R99). -/
def wr16Words (p : RegPair) (v : Half) : List OpWord :=
  [writeWord p.lowReg.offset (lowByte v), writeWord p.highReg.offset (highByte v)]

/-- The words of a line, one a cycle (30_encoding.md R98, R99). -/
def HostLine.words : HostLine → List OpWord
  | .nop n => List.replicate n 0
  | .rd a => [readWord a]
  | .wr a d => [writeWord a d]
  | .wr16 p v => wr16Words p v
  | .fill bytes => bytes.map (writeWord Reg.bdata.offset)
  | .go => [writeWord Reg.ctrl.offset 0x01]
  | .goi => [writeWord Reg.ctrl.offset 0x03]
  | .clrdone => [writeWord Reg.status.offset 0x02]
  | .xmit pin addr len =>
    writeWord Reg.pinsel.offset pin :: wr16Words .addr addr ++ wr16Words .len len ++
      [writeWord Reg.ctrl.offset 0x01]

/-- The inputs of a program, line after line, without reset (30_encoding.md R98). -/
def programInputs (lines : List HostLine) : List Input :=
  (lines.flatMap HostLine.words).map (fun w => ⟨false, w⟩)

/-- How a `poll` ends. -/
inductive PollEnd where
  /-- the condition held in the last of `reads` reads -/
  | matched (s : State) (reads : Nat)
  /-- the fuel is used up: the host program hangs, never a success (30_encoding.md R100,
  93_implementation_defined.md S8) -/
  | outOfFuel (s : State)
  /-- the machine itself stopped -/
  | stopped
  deriving DecidableEq, Repr

/-- `poll` after `n` reads: read the register in consecutive cycles until `rdata & mask = value`
(30_encoding.md R100). Its reads take their cycles before the host's later inputs (log 15). -/
def pollFrom (a : Offset) (mask value : Byte) (n : Nat) : Nat → State → PollEnd
  | 0, s => .outOfFuel s
  | fuel + 1, s =>
    match step { s with inputs := ⟨false, readWord a⟩ :: s.inputs } with
    | .next t =>
      if t.rdata &&& mask = value then .matched t (n + 1) else pollFrom a mask value (n + 1) fuel t
    | .fault _ => .stopped
    | .refused _ => .stopped

/-- `poll REG, mask, value` under fuel (30_encoding.md R100). -/
def poll (fuel : Nat) (a : Offset) (mask value : Byte) (s : State) : PollEnd :=
  pollFrom a mask value 0 fuel s

end Sys2Proof.Machine
end

