-- ==== Sys2Proof/Machine/Platform.lean ====
section
/-! DEFINITION. A platform with several instances of the block (60_exceptions.md R208): each has its own
`BASE`, buffer, pins and state, and they share nothing. -/

namespace Sys2Proof.Machine

/-- The instances are different ones: no two have the same number, so each has its own `BASE` and its
own draws (60_exceptions.md R208; log 17). -/
abbrev DistinctInstances (blocks : List State) : Prop := (blocks.map fun s => s.cfg.inst).Nodup

/-- One clock cycle of all instances: each makes its own step, with its own bus master's transaction
(60_exceptions.md R208). -/
def platformStep (blocks : List State) : List (Host.Outcome State Fault Refusal) := blocks.map step

end Sys2Proof.Machine
end

