-- ==== Sys2Proof/Machine/Outputs.lean ====
section
/-! DEFINITION. What a cycle drives (00_scope.md R6), the waveform of one pin over many cycles, the
waveform a byte range stands for (41_transmit_engine.md R155, R164, R165), and the spec's own
decoder of a waveform (R170). -/

namespace Sys2Proof.Machine

/-- `out_k`: what the block drives during a cycle (00_scope.md R6, 10_state.md R32). -/
structure CycleOut where
  pins  : List Bool
  irq   : Bool
  rdata : Byte
  deriving DecidableEq, Repr

/-- The outputs of the cycle of state `s`: `dout` and `irq` are functions of the state alone
(00_scope.md R19), `rdata` is what the step records of its transaction (10_state.md R57; log 3). -/
def cycleOut (s : State) : Option CycleOut :=
  match step s with
  | .next t => some ⟨s.pins, s.irq, t.rdata⟩
  | .fault _ => none
  | .refused _ => none

/-- `k` cycles: the steps from `s`, stopping where one does not answer a next state. -/
def runFor : Nat → State → Host.Outcome State Fault Refusal
  | 0, s => .next s
  | k + 1, s =>
    match step s with
    | .next t => runFor k t
    | .fault f => .fault f
    | .refused r => .refused r

/-- The level of pin `p` in `k` cycles, beginning with the cycle of state `s`. -/
def pinTrace (p : Nat) : Nat → State → List Bool
  | 0, _ => []
  | k + 1, s =>
    s.dout p ::
      match step s with
      | .next t => pinTrace p k t
      | .fault _ => []
      | .refused _ => []

/-- Cycles a bit is high (00_scope.md R9, R24). -/
def highCycles (c : Config) (bit : Bool) : Nat := if bit then c.t1h else c.t0h

/-- The bit slot of one bit: high, then low to its end (41_transmit_engine.md R155). -/
def slotWave (c : Config) (bit : Bool) : List Bool :=
  List.replicate (highCycles c bit) true ++ List.replicate (c.tbit - highCycles c bit) false

/-- The bits of a byte, most significant first (20_memory.md R73). -/
def byteBits (b : Byte) : List Bool :=
  [b.getLsbD 7, b.getLsbD 6, b.getLsbD 5, b.getLsbD 4,
   b.getLsbD 3, b.getLsbD 2, b.getLsbD 1, b.getLsbD 0]

/-- The eight bit slots of a byte, without a gap (41_transmit_engine.md R157, R158). -/
def byteWave (c : Config) (b : Byte) : List Bool := (byteBits b).flatMap (slotWave c)

/-- The waveform of a transmission: its bytes in order, then the trailer (41_transmit_engine.md
R164, R165). -/
def transmissionWave (c : Config) (bytes : List Byte) : List Bool :=
  bytes.flatMap (byteWave c) ++ List.replicate c.trail false

/-- The lengths of the maximal runs of high cycles, `h` high cycles having just gone by. -/
def runsFrom (h : Nat) : List Bool → List Nat
  | [] => if h = 0 then [] else [h]
  | true :: w => runsFrom (h + 1) w
  | false :: w => if h = 0 then runsFrom 0 w else h :: runsFrom 0 w

/-- The lengths of the maximal runs of high cycles of a waveform (41_transmit_engine.md R170). -/
def highRuns (w : List Bool) : List Nat := runsFrom 0 w

/-- The bit a run stands for: 1 if it is longer than `T0H` (41_transmit_engine.md R170). -/
def runBit (c : Config) (h : Nat) : Bool := decide (c.t0h < h)

/-- Eight bits as a byte, the first the most significant (41_transmit_engine.md R170). -/
def bitsByte (b7 b6 b5 b4 b3 b2 b1 b0 : Bool) : Byte :=
  BitVec.ofBool b7 ++ BitVec.ofBool b6 ++ BitVec.ofBool b5 ++ BitVec.ofBool b4 ++
    BitVec.ofBool b3 ++ BitVec.ofBool b2 ++ BitVec.ofBool b1 ++ BitVec.ofBool b0

/-- Group bits eight at a time into bytes (41_transmit_engine.md R170). Fewer than eight bits left
over are no byte (log 16, DESIGN CHOICE). -/
def bitsToBytes : List Bool → List Byte
  | b7 :: b6 :: b5 :: b4 :: b3 :: b2 :: b1 :: b0 :: rest =>
    bitsByte b7 b6 b5 b4 b3 b2 b1 b0 :: bitsToBytes rest
  | _ => []

/-- The decoder of one pin's waveform (41_transmit_engine.md R170). -/
def decodeWave (c : Config) (w : List Bool) : List Byte :=
  bitsToBytes ((highRuns w).map (runBit c))

/-- Cycles `BUSY` is high for `n >= 1` bytes (70_reset_and_hazards.md R237). -/
def busyCycles (c : Config) (n : Nat) : Nat := 8 * c.tbit * n + c.trail

end Sys2Proof.Machine
end

