-- ==== Sys2Proof/Safety.lean ====
section
/-! DEFINITION. What counts as a good state and a good run: the invariants of every reachable state
(10_state.md R61), a host that cuts no transmission off (70_reset_and_hazards.md R230, R233), and the
end of a run (00_scope.md R22). -/

namespace Sys2Proof.Machine

/-- The working state of a transmission in its bit slots (10_state.md R52, R61). -/
abbrev ShiftOk (s : State) : Prop :=
  s.ph < s.cfg.tbit ∧ s.lpin.toNat < s.cfg.numPins ∧ s.ptr.toNat + s.rem.toNat ≤ s.cfg.bufSize

/-- The invariants of every reachable state: those 10_state.md R61 lists, a legal configuration
(00_scope.md R9 to R13) and the canonical form of the buffer (20_memory.md R70, R72). -/
abbrev Inv (s : State) : Prop :=
  s.cfg.Legal ∧ Memory.wf s.cfg.bufSize s.buf = true ∧
    (s.st = .shift → ShiftOk s) ∧ (s.st = .trail → s.tcnt < s.cfg.trail) ∧
    (s.fcause = .none ↔ s.st ≠ .halt)

/-- A cycle of the host that cannot touch a transmission in progress, seen from its word alone: no
reset, no start command, no `BDATA` access (70_reset_and_hazards.md R233, R236). -/
def Input.quiet (x : Input) : Bool :=
  !x.rst &&
    match decodeOp x.op with
    | .wrCtrl d => !goBit d
    | .rdBdata => false
    | .wrBdata _ => false
    | _ => true

/-- The host has inputs for the next `k` cycles, and is quiet in each of them. -/
abbrev QuietFor (k : Nat) (s : State) : Prop :=
  k ≤ s.inputs.length ∧ (s.inputs.take k).all Input.quiet = true

/-- The cycle of state `s` cuts no transmission off: no reset and no fault in it. The host may do
anything else, a `BDATA` write included (70_reset_and_hazards.md R230, R233, R236). -/
def undisturbed (s : State) : Bool :=
  !s.input.rst &&
    match exec (fetch s) s with
    | .next t => t.st != .halt
    | .fault _ => false
    | .refused _ => false

/-- The next `k` cycles cut no transmission off. -/
def undisturbedFor : Nat → State → Bool
  | 0, _ => true
  | k + 1, s =>
    undisturbed s &&
      match step s with
      | .next t => undisturbedFor k t
      | .fault _ => false
      | .refused _ => false

/-- A start command in this cycle, without reset, in `IDLE`, for `LEN >= 1` bytes on a pin that
exists and within the buffer: the conditions on which it is accepted (41_transmit_engine.md R150,
R153). -/
abbrev StartsIn (s : State) : Prop :=
  s.input.rst = false ∧ (∃ d, decodeOp s.input.op = .wrCtrl d ∧ goBit d = true) ∧ s.st = .idle ∧
    1 ≤ s.len.toNat ∧ s.pin.toNat < s.cfg.numPins ∧ s.addr.toNat + s.len.toNat ≤ s.cfg.bufSize

/-- `s` is the state of the cycle of a start command for the range of `bytes`, and byte `j` of the
range is written and is `bytes[j]` in the cycle of its load, the start command's own for `j = 0` and
the one `8 * TBIT * j` cycles later else (20_memory.md R84, 70_reset_and_hazards.md R230). What the
byte is before and after that cycle is left open. -/
abbrev HeldAtLoad (s : State) (bytes : List Byte) : Prop :=
  ∀ j (h : j < bytes.length), ∃ u, runFor (8 * s.cfg.tbit * j) s = .next u ∧
    Memory.read (s.addr.toNat + j) u.buf = some bytes[j]

/-- The run has ended: the host's inputs are exhausted and the engine is in `IDLE` or `HALT`
(00_scope.md R22). -/
abbrev RunEnded (s : State) : Prop := s.inputs = [] ∧ (s.st = .idle ∨ s.st = .halt)

/-- The run has ended without a fault (00_scope.md R22). -/
abbrev RunSucceeded (s : State) : Prop := s.inputs = [] ∧ s.st = .idle

end Sys2Proof.Machine
end

