-- ==== Sys2Proof/Certificates/Slice0/Obligations.lean ====
section
/-! DEFINITION. What the spec says the block does, as statements for the provers. The helpers of
`Sys2Proof.Claims` only name what several statements share. -/

namespace Sys2Proof.Claims

open Sys2Proof.Machine

/-- Every word the row selects (30_encoding.md R94) decodes to `i`. -/
abbrev Selects (fixed mask : OpWord) (i : Instr) : Prop :=
  ∀ op : OpWord, op &&& mask = fixed → decodeOp op = i

/-- Every word the write row selects decodes to `i` with the data in its bits 7 to 0. -/
abbrev SelectsWrite (fixed : OpWord) (i : Byte → Instr) : Prop :=
  ∀ op : OpWord, op &&& 0x3F00 = fixed → decodeOp op = i (op.setWidth 8)

/-- The cycle of `s` is no reset and its transaction makes `t` without a fault, outside `HALT`. -/
abbrev RunsCycle (s t : State) : Prop :=
  s.cfg.Legal ∧ s.input.rst = false ∧ exec (fetch s) s = .next t ∧ t.st ≠ .halt

/-- `RD_<pair>_L`. -/
def readLow : RegPair → Instr
  | .addr => .rdAddrL
  | .len => .rdLenL
  | .bptr => .rdBptrL

/-- `RD_<pair>_H`. -/
def readHigh : RegPair → Instr
  | .addr => .rdAddrH
  | .len => .rdLenH
  | .bptr => .rdBptrH

/-- `WR_<pair>_L D`. -/
def writeLow (p : RegPair) (d : Byte) : Instr :=
  match p with
  | .addr => .wrAddrL d
  | .len => .wrLenL d
  | .bptr => .wrBptrL d

/-- `WR_<pair>_H D`. -/
def writeHigh (p : RegPair) (d : Byte) : Instr :=
  match p with
  | .addr => .wrAddrH d
  | .len => .wrLenH d
  | .bptr => .wrBptrH d

/-- The number of a fault code (60_exceptions.md R190). -/
def codeNumber : FaultCode → Nat
  | .none => 0
  | .bufBounds => 1
  | .busyGo => 2
  | .range => 3
  | .badPin => 4

/-- What a transaction returns in `HALT` from the held state (60_exceptions.md R198). -/
def heldRead (s : State) : Instr → Byte
  | .rdCtrl => ctrlByte s
  | .rdStatus => statusByte s
  | .rdPinsel => pinselByte s
  | .rdAddrL => lowByte s.addr
  | .rdAddrH => highByte s.addr
  | .rdLenL => lowByte s.len
  | .rdLenH => highByte s.len
  | .rdBptrL => lowByte s.bptr
  | .rdBptrH => highByte s.bptr
  | .rdFcause => fcauseByte s
  | _ => 0

/-- The cases in which a transaction faults, with the number of the code (60_exceptions.md R190, in the
order of R196). -/
abbrev FaultCase (i : Instr) (s : State) (code : Nat) : Prop :=
  (code = 1 ∧ (i = .rdBdata ∨ ∃ d, i = .wrBdata d) ∧ s.cfg.bufSize ≤ s.bptr.toNat) ∨
    ∃ d : Byte, i = .wrCtrl d ∧ d.getLsbD 0 = true ∧
      ((code = 2 ∧ (s.st = .shift ∨ s.st = .trail)) ∨
        (code = 4 ∧ s.st = .idle ∧ 1 ≤ s.len.toNat ∧ s.cfg.numPins ≤ s.pin.toNat) ∨
        (code = 3 ∧ s.st = .idle ∧ 1 ≤ s.len.toNat ∧ s.pin.toNat < s.cfg.numPins ∧
          s.cfg.bufSize < s.addr.toNat + s.len.toNat))

/-- Two states of one instance (the configurations, and in them its number, are equal: log 17) whose
engines are in the same place; their registers, their host and their buffers may differ. -/
abbrev SameEngine (s u : State) : Prop :=
  s.cfg = u.cfg ∧ s.st = u.st ∧ s.sh = u.sh ∧ s.nb = u.nb ∧ s.ph = u.ph ∧ s.rem = u.rem ∧
    s.ptr = u.ptr ∧ s.lpin = u.lpin ∧ s.tcnt = u.tcnt

/-- A start command in this cycle is accepted for `LEN >= 1` (41_transmit_engine.md R150). -/
abbrev AcceptableGo (s : State) : Prop :=
  s.st = .idle ∧ 1 ≤ s.len.toNat ∧ s.pin.toNat < s.cfg.numPins ∧
    s.addr.toNat + s.len.toNat ≤ s.cfg.bufSize

end Sys2Proof.Claims

open Sys2Proof Sys2Proof.Machine Sys2Proof.Claims

/-! ## Encoding -/

/-- 30_encoding.md R93, R94: decoding the word of a well-formed instruction gives it back, with every
operand. The clause about bytes rests on the model's own choice of a layout, two bytes with the low
one first, which the spec does not give (log 13). -/
def Obligations.DecodeOfEncodeIsTheInstruction : Prop :=
  ∀ i : Instr, i.wf = true →
    decodeOp (encode i) = i ∧ decodeBytes (encodeBytes i) = .ok (i, [])

/-- 30_encoding.md R94. -/
def Obligations.EveryWordSelectsExactlyOneRow : Prop :=
  ∀ op : OpWord,
    (opcodeMap.filter fun r => r.selects op).map OpRow.row = [(decodeOp op).row]

/-- 30_encoding.md R90, R91, R93. -/
def Obligations.WordFieldsSelectTheTransaction : Prop :=
  ∀ (v w : Bool) (a : Offset) (d : Byte),
    (busWord v w a d).toNat = v.toNat * 8192 + w.toNat * 4096 + a.toNat * 256 + d.toNat ∧
      decodeOp (busWord v w a d) =
        if v = false then .nop else if w = false then readOf a else writeOf a d

/-- 30_encoding.md R96: the canonical word of an idle cycle keeps no bit, that of a read all but the
data bits. That of a write keeps every bit, also the data bits that the target register ignores:
the data is an operand of every write (the model's choice, log 14). -/
def Obligations.EncodeOfDecodeKeepsTheMeaningfulBits : Prop :=
  ∀ op : OpWord, encode (decodeOp op) =
    op &&& (if op.getLsbD 13 = false then 0 else if op.getLsbD 12 = false then 0x3F00 else 0x3FFF)

/-- 95_test_vectors.md section 2.1: words of the spec and what they decode to. -/
def Obligations.WordsOfTheSpecDecode : Prop :=
  decodeOp 0x0000 = .nop ∧ decodeOp 0x1FFF = .nop ∧ decodeOp 0x20FF = .rdCtrl ∧
    decodeOp 0x3003 = .wrCtrl 0x03 ∧ decodeOp 0x3102 = .wrStatus 0x02 ∧
    decodeOp 0x33FC = .wrAddrL 0xFC ∧ decodeOp 0x350B = .wrLenL 0x0B ∧
    decodeOp 0x3802 = .wrBptrH 0x02 ∧ decodeOp 0x2900 = .rdBdata ∧
    decodeOp 0x39A5 = .wrBdata 0xA5 ∧ decodeOp 0x2F00 = .rdRsvdHigh 0xF ∧
    decodeOp 0x3E55 = .wrRsvdHigh 0xE 0x55

/-- 30_encoding.md R95: every word is a transaction; in every state it answers a next state, and in
some state that is not halted it answers one without a fault; the reserved offsets read 0x00 and
do nothing. -/
def Obligations.NoWordIsIllegal : Prop :=
  ∀ op : OpWord,
    (decodeOp op).wf = true ∧
      (∀ s : State, ∃ t, exec (decodeOp op) s = .next t) ∧
      (∃ s t : State, s.st ≠ .halt ∧ exec (decodeOp op) s = .next t ∧ t.st ≠ .halt) ∧
      (op.getLsbD 13 = true → 11 ≤ (op.extractLsb' 8 4).toNat →
        ∀ s : State, exec (decodeOp op) s = .next { s with rdata := 0 })

/-! ## The step and the transaction -/

/-- 00_scope.md R6, 40_register_access.md R136: a cycle without reset runs the transaction its word
decodes to and joins it with the engine step. The model's own choices: then the cycle's inputs are
consumed (log 1) and the count of the draws goes up (log 4), and where the engine would load a byte
that does not exist the step stops (log 10). -/
def Obligations.StepRunsTheDecodedTransaction : Prop :=
  ∀ (s t : State) (i : Instr), s.cfg.Legal → s.input.rst = false → decodeOp s.input.op = i →
    exec i s = .next t →
      (t.st = .halt →
        step s = .next { t with inputs := t.inputs.tail, draws := t.draws + 1 }) ∧
      (t.st ≠ .halt → ∀ a, engineAct s = .ok a →
        step s = .next { a.apply s t with inputs := t.inputs.tail, draws := t.draws + 1 }) ∧
      (t.st ≠ .halt → ∀ f, engineAct s = .error f → step s = .fault f)

/-- The model's own interface (log 2, log 13): the word placed for the next cycle is the one the
decoder reads, and nothing else of the state changes. -/
def Obligations.PlacedWordIsFetched : Prop :=
  ∀ (s : State) (nbits w : Nat) (i : Instr), decodeTableWord nbits w = some i →
    fetch (s.withFetchWord nbits w) = i ∧ (s.withFetchWord nbits w).input.rst = false ∧
      s.withFetchWord nbits w =
        { s with inputs := (s.withFetchWord nbits w).input :: s.inputs.tail }

/-- The model's own choice (log 6), which 93_implementation_defined.md S10 asks for: a
configuration outside the legal ranges is refused, and nothing else is. -/
def Obligations.OnlyIllegalConfigurationsAreRefused : Prop :=
  ∀ s : State, (∃ r, step s = .refused r) ↔ ¬ s.cfg.Legal

/-! ## Idle cycles and reads -/

/-- 40_register_access.md R111. The consumed inputs and the count of the draws are the model's own
fields (log 1, log 4). -/
def Obligations.NopLeavesTheCycleToTheEngine : Prop :=
  (∀ op : OpWord, op.getLsbD 13 = false → decodeOp op = .nop) ∧ encode .nop = 0x0000 ∧
    (∀ s : State, exec .nop s = .next { s with rdata := 0 }) ∧
    ∀ (s : State) (a : EngineAct), s.cfg.Legal → s.input.rst = false →
      s.input.op.getLsbD 13 = false → engineAct s = .ok a →
      step s = .next
        { a.apply s s with rdata := 0, inputs := s.inputs.tail, draws := s.draws + 1 }

/-- 40_register_access.md R112: bit 1 is `IRQ_EN`, every other bit reads 0, `GO` among them. -/
def Obligations.RdCtrlReturnsIrqEn : Prop :=
  Selects 0x2000 0x3F00 .rdCtrl ∧
    ∀ s : State, ∃ v, exec .rdCtrl s = .next { s with rdata := v } ∧
      ∀ i, v.getLsbD i = (decide (i = 1) && s.irqEn)

/-- 40_register_access.md R114. -/
def Obligations.RdStatusReturnsTheFlags : Prop :=
  Selects 0x2100 0x3F00 .rdStatus ∧
    ∀ s : State, ∃ v, exec .rdStatus s = .next { s with rdata := v } ∧
      (v.getLsbD 0 = true ↔ s.st = .shift ∨ s.st = .trail) ∧ v.getLsbD 1 = s.done ∧
      (v.getLsbD 2 = true ↔ s.st = .halt) ∧ (∀ i, 3 ≤ i → v.getLsbD i = false) ∧
      ¬ (v.getLsbD 0 = true ∧ v.getLsbD 2 = true)

/-- 40_register_access.md R116, R117. -/
def Obligations.PinselStoresItsThreeBits : Prop :=
  Selects 0x2200 0x3F00 .rdPinsel ∧ SelectsWrite 0x3200 .wrPinsel ∧
    (∀ s : State, ∃ v, exec .rdPinsel s = .next { s with rdata := v } ∧
      v.toNat = s.pin.toNat) ∧
    ∀ (s : State) (d : Byte), s.st ≠ .halt →
      ∃ p, exec (.wrPinsel d) s = .next { s with pin := p, rdata := 0 } ∧
        p.toNat = d.toNat % 8

/-- 40_register_access.md R118, R120, R122, R124, R126, R128; 20_memory.md R75. -/
def Obligations.RegisterPairsReadByHalves : Prop :=
  Selects 0x2300 0x3F00 .rdAddrL ∧ Selects 0x2400 0x3F00 .rdAddrH ∧
    Selects 0x2500 0x3F00 .rdLenL ∧ Selects 0x2600 0x3F00 .rdLenH ∧
    Selects 0x2700 0x3F00 .rdBptrL ∧ Selects 0x2800 0x3F00 .rdBptrH ∧
    ∀ (p : RegPair) (s : State),
      (∃ v, exec (readLow p) s = .next { s with rdata := v } ∧
        v.toNat = (p.get s).toNat % 256) ∧
      ∃ v, exec (readHigh p) s = .next { s with rdata := v } ∧
        v.toNat = (p.get s).toNat / 256

/-- 40_register_access.md R132. -/
def Obligations.RdFcauseReturnsTheCode : Prop :=
  Selects 0x2A00 0x3F00 .rdFcause ∧
    ∀ s : State, ∃ v, exec .rdFcause s = .next { s with rdata := v } ∧
      v.toNat = codeNumber s.fcause ∧
      (Inv s → s.st ≠ .halt → v = 0) ∧ (Inv s → s.st = .halt → 1 ≤ v.toNat ∧ v.toNat ≤ 4)

/-! ## Register writes -/

/-- 40_register_access.md R119, R121, R123, R125, R127, R129: one half takes the data, the other
keeps its value, without a carry, and nothing else changes. -/
def Obligations.RegisterPairsWriteByHalves : Prop :=
  SelectsWrite 0x3300 .wrAddrL ∧ SelectsWrite 0x3400 .wrAddrH ∧ SelectsWrite 0x3500 .wrLenL ∧
    SelectsWrite 0x3600 .wrLenH ∧ SelectsWrite 0x3700 .wrBptrL ∧ SelectsWrite 0x3800 .wrBptrH ∧
    ∀ (p : RegPair) (s : State) (d : Byte), s.st ≠ .halt →
      (∃ v, exec (writeLow p d) s = .next (p.set v { s with rdata := 0 }) ∧
        v.toNat = (p.get s).toNat / 256 * 256 + d.toNat) ∧
      ∃ v, exec (writeHigh p d) s = .next (p.set v { s with rdata := 0 }) ∧
        v.toNat = d.toNat * 256 + (p.get s).toNat % 256

/-- 40_register_access.md R115, with R136 where the engine sets `DONE` in the same cycle. -/
def Obligations.WrStatusClearsDone : Prop :=
  SelectsWrite 0x3100 .wrStatus ∧
    (∀ (s : State) (d : Byte), s.st ≠ .halt →
      exec (.wrStatus d) s =
        .next { s with done := s.done && !d.getLsbD 1, rdata := 0 }) ∧
    ∀ (s : State) (d : Byte), s.cfg.Legal → s.input.rst = false → fetch s = .wrStatus d →
      s.st = .trail → s.tcnt = s.cfg.trail - 1 → ∃ s', step s = .next s' ∧ s'.done = true

/-- 40_register_access.md R133, R134, R135: in every state. -/
def Obligations.FcauseWritesAndReservedOffsetsDoNothing : Prop :=
  SelectsWrite 0x3A00 .wrFcause ∧ Selects 0x2B00 0x3F00 .rdRsvdB ∧ SelectsWrite 0x3B00 .wrRsvdB ∧
    (∀ op : OpWord, op &&& 0x3C00 = 0x2C00 → decodeOp op = .rdRsvdHigh (op.extractLsb' 8 4)) ∧
    (∀ op : OpWord, op &&& 0x3C00 = 0x3C00 →
      decodeOp op = .wrRsvdHigh (op.extractLsb' 8 4) (op.setWidth 8)) ∧
    ∀ (s : State) (a : Offset) (d : Byte),
      exec (.wrFcause d) s = .next { s with rdata := 0 } ∧
      exec .rdRsvdB s = .next { s with rdata := 0 } ∧
      exec (.rdRsvdHigh a) s = .next { s with rdata := 0 } ∧
      exec (.wrRsvdB d) s = .next { s with rdata := 0 } ∧
      exec (.wrRsvdHigh a d) s = .next { s with rdata := 0 }

/-- 20_memory.md R83, 70_reset_and_hazards.md R229: a read-write field written in one cycle reads back
in the next, whatever the engine does meanwhile: the halves of the pairs, `PIN`, and `IRQ_EN` by
every `CTRL` write that does not fault. -/
def Obligations.WrittenRegisterReadsBack : Prop :=
  ∀ (s : State) (p : RegPair) (d : Byte) (rest : List Input), Inv s → s.st ≠ .halt →
    (s.inputs = ⟨false, encode (writeLow p d)⟩ :: ⟨false, encode (readLow p)⟩ :: rest →
      ∃ s', runFor 2 s = .next s' ∧ s'.rdata = d) ∧
    (s.inputs = ⟨false, encode (writeHigh p d)⟩ :: ⟨false, encode (readHigh p)⟩ :: rest →
      ∃ s', runFor 2 s = .next s' ∧ s'.rdata = d) ∧
    (s.inputs = ⟨false, encode (.wrPinsel d)⟩ :: ⟨false, encode .rdPinsel⟩ :: rest →
      ∃ s', runFor 2 s = .next s' ∧ s'.rdata.toNat = d.toNat % 8) ∧
    (d.getLsbD 0 = false ∨ (s.st = .idle ∧ s.len.toNat = 0) ∨ AcceptableGo s →
      s.inputs = ⟨false, encode (.wrCtrl d)⟩ :: ⟨false, encode .rdCtrl⟩ :: rest →
      ∃ s', runFor 2 s = .next s' ∧
        ∀ i, s'.rdata.getLsbD i = (decide (i = 1) && d.getLsbD 1))

/-- 10_state.md R37, R38, R39: outside reset a pair changes only by its own writes, and `BPTR` also
by a `BDATA` access, which adds 1; the engine never writes one. -/
def Obligations.OnlyItsTransactionsChangeARegisterPair : Prop :=
  ∀ (s s' : State) (p : RegPair), step s = .next s' → s.input.rst = false →
    p.get s' ≠ p.get s →
      s.st ≠ .halt ∧
        ((∃ d, fetch s = writeLow p d ∨ fetch s = writeHigh p d) ∨
          (p = .bptr ∧ (fetch s = .rdBdata ∨ ∃ d, fetch s = .wrBdata d) ∧
            p.get s' = p.get s + 1))

/-! ## The buffer data port -/

/-- 40_register_access.md R130, R110: a `BDATA` read inside the buffer, of a written and of an
unwritten byte, and in `HALT`. The draw is a free value (log 4). -/
def Obligations.RdBdataReadsAndIncrements : Prop :=
  Selects 0x2900 0x3F00 .rdBdata ∧
    (∀ s : State, s.st ≠ .halt → s.bptr.toNat < s.cfg.bufSize →
      (∀ v, Memory.read s.bptr.toNat s.buf = some v →
        exec .rdBdata s = .next { s with rdata := v, bptr := s.bptr + 1 }) ∧
      (Memory.read s.bptr.toNat s.buf = none →
        exec .rdBdata s =
          .next { s with rdata := Config.hostDraw s.cfg.inst s.draws, bptr := s.bptr + 1 }) ∧
      (s.cfg.Legal → (s.bptr + 1).toNat = s.bptr.toNat + 1)) ∧
    ∀ s : State, s.st = .halt → exec .rdBdata s = .next { s with rdata := 0 }

/-- 40_register_access.md R131: the byte at `BPTR` takes the data, every other byte reads as before,
the buffer keeps its canonical form. -/
def Obligations.WrBdataStoresAndIncrements : Prop :=
  SelectsWrite 0x3900 .wrBdata ∧
    ∀ (s : State) (d : Byte), s.st ≠ .halt → bdataAddress s < s.cfg.bufSize →
      ∃ m, exec (.wrBdata d) s = .next { s with buf := m, bptr := s.bptr + 1, rdata := 0 } ∧
        Memory.read (bdataAddress s) m = some d ∧
        (∀ a, a ≠ bdataAddress s → Memory.read a m = Memory.read a s.buf) ∧
        (Memory.wf s.cfg.bufSize s.buf = true → Memory.wf s.cfg.bufSize m = true) ∧
        (s.cfg.Legal → (s.bptr + 1).toNat = s.bptr.toNat + 1)

/-- 60_exceptions.md R191. -/
def Obligations.BdataBeyondTheBufferFaults : Prop :=
  ∀ s : State, s.st ≠ .halt → s.cfg.bufSize ≤ s.bptr.toNat →
    exec .rdBdata s = .next { s with st := .halt, fcause := .bufBounds, rdata := 0 } ∧
      ∀ d : Byte,
        exec (.wrBdata d) s = .next { s with st := .halt, fcause := .bufBounds, rdata := 0 }

/-- 20_memory.md R70, R72, 70_reset_and_hazards.md R223: no cycle, reset or not, changes a buffer
byte but a `BDATA` write at `BPTR`. -/
def Obligations.OnlyBdataWritesChangeTheBuffer : Prop :=
  ∀ (s s' : State) (a : Nat), step s = .next s' →
    Memory.read a s'.buf ≠ Memory.read a s.buf →
      s.input.rst = false ∧ s.st ≠ .halt ∧ a = bdataAddress s ∧ a < s.cfg.bufSize ∧
        ∃ d, fetch s = .wrBdata d ∧ Memory.read a s'.buf = some d

/-! ## The start command -/

/-- 40_register_access.md R113, a `CTRL` write without the start bit. -/
def Obligations.WrCtrlWithoutGoSetsIrqEn : Prop :=
  SelectsWrite 0x3000 .wrCtrl ∧
    ∀ (s : State) (d : Byte), s.st ≠ .halt → d.getLsbD 0 = false →
      exec (.wrCtrl d) s = .next { s with irqEn := d.getLsbD 1, rdata := 0 }

/-- 41_transmit_engine.md R150, 60_exceptions.md R193, R194: the checks of a start command in their
order, and that it passes when none fails. -/
def Obligations.GoChecksInOrder : Prop :=
  ∀ (s : State) (d : Byte), d.getLsbD 0 = true →
    ((s.st = .shift ∨ s.st = .trail) →
      exec (.wrCtrl d) s = .next { s with st := .halt, fcause := .busyGo, rdata := 0 }) ∧
    (s.st = .idle → s.len.toNat = 0 →
      ∃ t, exec (.wrCtrl d) s = .next t ∧ t.st = .idle ∧ t.fcause = s.fcause) ∧
    (s.st = .idle → 1 ≤ s.len.toNat → s.cfg.numPins ≤ s.pin.toNat →
      exec (.wrCtrl d) s = .next { s with st := .halt, fcause := .badPin, rdata := 0 }) ∧
    (s.st = .idle → 1 ≤ s.len.toNat → s.pin.toNat < s.cfg.numPins →
      s.cfg.bufSize < s.addr.toNat + s.len.toNat →
      exec (.wrCtrl d) s = .next { s with st := .halt, fcause := .range, rdata := 0 }) ∧
    (AcceptableGo s → ∃ t, exec (.wrCtrl d) s = .next t ∧ t.st = .shift ∧ t.fcause = s.fcause)

/-- 41_transmit_engine.md R152. -/
def Obligations.ZeroLengthGoOnlySetsDone : Prop :=
  ∀ (s : State) (d : Byte), s.st = .idle → d.getLsbD 0 = true → s.len.toNat = 0 →
    ∃ t, exec (.wrCtrl d) s = .next t ∧
      t = { s with done := true, irqEn := d.getLsbD 1, rdata := 0 } ∧
      t.busy = false ∧ ∀ p, t.dout p = false

/-- 41_transmit_engine.md R154: the working registers of an accepted start; the first byte is the
buffer's, or a draw when it is unwritten, in the model's form of a draw (log 4, log 17). -/
def Obligations.AcceptedGoLoadsTheEngine : Prop :=
  ∀ (s : State) (d : Byte), s.cfg.Legal → d.getLsbD 0 = true → AcceptableGo s →
    ∃ b, exec (.wrCtrl d) s =
        .next { s with
          st := .shift, sh := b, nb := 0, ph := 0, ptr := s.addr + 1, rem := s.len - 1,
          lpin := s.pin, done := false, irqEn := d.getLsbD 1, rdata := 0 } ∧
      (∀ v, Memory.read s.addr.toNat s.buf = some v → b = v) ∧
      (Memory.read s.addr.toNat s.buf = none → b = Config.engineDraw s.cfg.inst s.draws) ∧
      (s.addr + 1).toNat = s.addr.toNat + 1 ∧ (s.len - 1).toNat = s.len.toNat - 1

/-- 41_transmit_engine.md R153: the start is accepted exactly when the sum, without wrapping, stays
within the buffer, which is when every byte of the range exists. -/
def Obligations.GoIsAcceptedIffEveryByteExists : Prop :=
  ∀ (s : State) (d : Byte), s.st = .idle → d.getLsbD 0 = true → 1 ≤ s.len.toNat →
    s.pin.toNat < s.cfg.numPins →
      ((∃ t, exec (.wrCtrl d) s = .next t ∧ t.st = .shift) ↔
        s.addr.toNat + s.len.toNat ≤ s.cfg.bufSize) ∧
      ((∃ t, exec (.wrCtrl d) s = .next t ∧ t.st = .shift) ↔
        ∀ j, j < s.len.toNat → s.addr.toNat + j < s.cfg.bufSize)

/-! ## The engine step -/

/-- 41_transmit_engine.md R156, R157, R158, R159: the engine step in `SHIFT`, whatever transaction
the cycle carries, as long as it does not fault. The load reads the buffer of this cycle. That the
load of an unwritten byte is the free value `Config.engineDraw` is the model's form of a draw
(log 4, log 17). -/
def Obligations.EngineStepInShift : Prop :=
  ∀ s t : State, Inv s → RunsCycle s t → s.st = .shift →
    ∃ s', step s = .next s' ∧ s'.lpin = s.lpin ∧
      (s.ph < s.cfg.tbit - 1 →
        s'.ph = s.ph + 1 ∧ s'.st = .shift ∧ s'.sh = s.sh ∧ s'.nb = s.nb ∧ s'.rem = s.rem ∧
          s'.ptr = s.ptr ∧ s'.tcnt = s.tcnt) ∧
      (s.ph = s.cfg.tbit - 1 → s.nb.toNat < 7 →
        s'.ph = 0 ∧ s'.nb.toNat = s.nb.toNat + 1 ∧ s'.sh.toNat = s.sh.toNat * 2 % 256 ∧
          s'.st = .shift ∧ s'.rem = s.rem ∧ s'.ptr = s.ptr ∧ s'.tcnt = s.tcnt) ∧
      (s.ph = s.cfg.tbit - 1 → s.nb.toNat = 7 → 0 < s.rem.toNat →
        s'.ph = 0 ∧ s'.nb = 0 ∧ s'.ptr.toNat = s.ptr.toNat + 1 ∧
          s'.rem.toNat = s.rem.toNat - 1 ∧ s'.st = .shift ∧ s'.tcnt = s.tcnt ∧
          (∀ v, Memory.read s.ptr.toNat s.buf = some v → s'.sh = v) ∧
          (Memory.read s.ptr.toNat s.buf = none →
            s'.sh = Config.engineDraw s.cfg.inst s.draws)) ∧
      (s.ph = s.cfg.tbit - 1 → s.nb.toNat = 7 → s.rem.toNat = 0 →
        s'.st = .trail ∧ s'.tcnt = 0 ∧ s'.sh = s.sh ∧ s'.nb = s.nb ∧ s'.ph = s.ph ∧
          s'.rem = s.rem ∧ s'.ptr = s.ptr)

/-- 41_transmit_engine.md R161, R162: the engine step in `TRAIL`. -/
def Obligations.EngineStepInTrail : Prop :=
  ∀ s t : State, RunsCycle s t → s.st = .trail →
    ∃ s', step s = .next s' ∧
      (s.tcnt < s.cfg.trail - 1 → s'.st = .trail ∧ s'.tcnt = s.tcnt + 1 ∧ s'.done = t.done) ∧
      (s.tcnt = s.cfg.trail - 1 → s'.st = .idle ∧ s'.done = true)

/-- 41_transmit_engine.md R163: in `IDLE` and `HALT` the cycle is the transaction alone and every
pin is low. The consumed inputs and the count of the draws are the model's own (log 1, log 4). -/
def Obligations.EngineHoldsInIdleAndHalt : Prop :=
  ∀ s : State, s.st = .idle ∨ s.st = .halt →
    (∀ p, s.dout p = false) ∧
      ∀ t, s.cfg.Legal → s.input.rst = false → exec (fetch s) s = .next t →
        step s = .next { t with inputs := s.inputs.tail, draws := s.draws + 1 }

/-- 40_register_access.md R136: a fault discards the engine step; else the registers are the
transaction's, the working state of a busy engine is the engine's alone, and `DONE` is 1 if the
engine sets it, else the transaction's. The consumed inputs and the count of the draws are the
model's own fields (log 1, log 4). -/
def Obligations.TransactionAndEngineCombine : Prop :=
  ∀ s t : State, s.cfg.Legal → s.input.rst = false → s.st ≠ .halt →
    exec (fetch s) s = .next t →
      (t.st = .halt → step s = .next { t with inputs := s.inputs.tail, draws := s.draws + 1 }) ∧
      (t.st ≠ .halt → ∀ a, engineAct s = .ok a →
        ∃ s', step s = .next s' ∧ s'.irqEn = t.irqEn ∧ s'.pin = t.pin ∧ s'.addr = t.addr ∧
          s'.len = t.len ∧ s'.bptr = t.bptr ∧ s'.fcause = t.fcause ∧ s'.buf = t.buf ∧
          s'.done = (decide (a = .trailEnd) || t.done) ∧
          (s.busy = true →
            s'.st = (a.apply s s).st ∧ s'.sh = (a.apply s s).sh ∧ s'.nb = (a.apply s s).nb ∧
              s'.ph = (a.apply s s).ph ∧ s'.rem = (a.apply s s).rem ∧
              s'.ptr = (a.apply s s).ptr ∧ s'.lpin = s.lpin ∧
              s'.tcnt = (a.apply s s).tcnt) ∧
          (s.busy = false →
            s'.st = t.st ∧ s'.sh = t.sh ∧ s'.nb = t.nb ∧ s'.ph = t.ph ∧ s'.rem = t.rem ∧
              s'.ptr = t.ptr ∧ s'.lpin = t.lpin ∧ s'.tcnt = t.tcnt))

/-- 20_memory.md R84: a `BDATA` write in the cycle of that byte's load is stored and not seen by the
load. -/
def Obligations.SameCycleWriteIsNotLoaded : Prop :=
  ∀ (s : State) (d v : Byte), Inv s → s.input.rst = false → fetch s = .wrBdata d →
    s.st = .shift → s.ph = s.cfg.tbit - 1 → s.nb.toNat = 7 → 0 < s.rem.toNat →
    s.bptr = s.ptr → Memory.read s.ptr.toNat s.buf = some v →
      ∃ s', step s = .next s' ∧ s'.sh = v ∧ Memory.read s.ptr.toNat s'.buf = some d

/-- 00_scope.md R7, 20_memory.md R85: two runs of one instance, busy, with the engine in the same
place and the same byte to load next, go on alike whatever their hosts do short of a reset and a
fault. Where that byte is unwritten in both, that they load the same value is the model's own
choice: the draw is a function of the instance's number and the count of the draws (log 4,
log 17), which are equal here. -/
def Obligations.EngineIgnoresTheHost : Prop :=
  ∀ s u s₁ u₁ s' u' : State, SameEngine s u → s.draws = u.draws →
    Memory.read s.ptr.toNat s.buf = Memory.read s.ptr.toNat u.buf → s.busy = true →
    RunsCycle s s₁ → RunsCycle u u₁ → step s = .next s' → step u = .next u' →
      SameEngine s' u' ∧ ∀ p, s.dout p = u.dout p ∧ s'.dout p = u'.dout p

/-- 10_state.md R52: in `SHIFT` the end address of the transmission is kept, and `ptr` does not
wrap. -/
def Obligations.EndAddressIsKept : Prop :=
  ∀ s s' : State, Inv s → s.st = .shift → step s = .next s' → s'.st = .shift →
    s'.ptr.toNat + s'.rem.toNat = s.ptr.toNat + s.rem.toNat ∧ s.ptr.toNat ≤ s'.ptr.toNat

/-! ## Outputs and flags -/

/-- 10_state.md R55, 41_transmit_engine.md R155, R160: a pin is high exactly when it is the latched
pin in `SHIFT` before the drop point of the current bit. -/
def Obligations.PinIsHighBeforeTheDropPoint : Prop :=
  ∀ (s : State) (p : Nat), s.cfg.Legal → p < s.cfg.numPins →
    (s.dout p = true ↔
      s.st = .shift ∧ p = s.lpin.toNat ∧
        s.ph < if s.sh.getLsbD 7 = true then s.cfg.t1h else s.cfg.t0h)

/-- 41_transmit_engine.md R166. -/
def Obligations.AtMostOnePinIsHigh : Prop :=
  ∀ (s : State) (p q : Nat), s.dout p = true → s.dout q = true →
    p = q ∧ p = s.lpin.toNat ∧ s.busy = true

/-- 10_state.md R56, 60_exceptions.md R201, R202: `irq` is `IRQ_EN` and a pending condition, and it
falls only by a reset, a clear of `DONE`, an accepted start, or a clear of `IRQ_EN`. -/
def Obligations.IrqIsALevel : Prop :=
  (∀ s : State, s.irq = true ↔ s.irqEn = true ∧ (s.done = true ∨ s.st = .halt)) ∧
    ∀ s s' : State, step s = .next s' → s.irq = true → s'.irq = false →
      s.input.rst = true ∨
        (s.st ≠ .halt ∧ ∃ d : Byte,
          (fetch s = .wrStatus d ∧ d.getLsbD 1 = true) ∨
          (fetch s = .wrCtrl d ∧ (d.getLsbD 1 = false ∨ (d.getLsbD 0 = true ∧ AcceptableGo s))))

/-- 10_state.md R45: what sets `DONE`, what clears it, that it is held otherwise (also over a start
that faults and over a fault in the last trailer cycle), and its reset value. -/
def Obligations.DoneChangesOnlyAsListed : Prop :=
  (∀ s s' : State, s.input.rst = true → step s = .next s' → s'.done = false) ∧
  ∀ s t s' : State, s.cfg.Legal → s.input.rst = false → exec (fetch s) s = .next t →
    step s = .next s' →
      (t.st ≠ .halt → s.st = .trail → s.tcnt = s.cfg.trail - 1 → s'.done = true) ∧
      (∀ d : Byte, fetch s = .wrCtrl d → d.getLsbD 0 = true → s.st = .idle →
        s.len.toNat = 0 → s'.done = true) ∧
      (∀ d : Byte, fetch s = .wrCtrl d → d.getLsbD 0 = true → AcceptableGo s →
        s'.done = false) ∧
      (∀ d : Byte, fetch s = .wrStatus d → d.getLsbD 1 = true → s.st ≠ .halt →
        (s.st = .trail → s.tcnt < s.cfg.trail - 1) → s'.done = false) ∧
      (s'.done ≠ s.done → s.st ≠ .halt ∧ t.st ≠ .halt ∧
        ((s.st = .trail ∧ s.cfg.trail - 1 ≤ s.tcnt) ∨
          ∃ d : Byte, (fetch s = .wrCtrl d ∧ d.getLsbD 0 = true ∧
              ((s.st = .idle ∧ s.len.toNat = 0) ∨ AcceptableGo s)) ∨
            (fetch s = .wrStatus d ∧ d.getLsbD 1 = true)))

/-- 10_state.md R44, 70_reset_and_hazards.md R228: `BUSY` rises only by an accepted start and falls
only by a reset, a fault or the end of the trailer. -/
def Obligations.BusyRisesAndFallsOnlyAsListed : Prop :=
  ∀ s s' : State, step s = .next s' →
    (s.busy = false → s'.busy = true →
      s.input.rst = false ∧ AcceptableGo s ∧ ∃ d : Byte, fetch s = .wrCtrl d ∧
        d.getLsbD 0 = true) ∧
    (s.busy = true → s'.busy = false →
      s.input.rst = true ∨ s'.fault = true ∨
        (s.st = .trail ∧ s.cfg.trail - 1 ≤ s.tcnt ∧ s'.done = true))

/-! ## Faults, the halted state, reset -/

/-- 60_exceptions.md R190: outside `HALT` a transaction faults exactly in the listed cases, `FCAUSE`
then holds the listed code, and the engine step raises no fault. -/
def Obligations.FaultsExactlyInTheListedCases : Prop :=
  ∀ (i : Instr) (s t : State), s.st ≠ .halt → exec i s = .next t →
    (t.st = .halt ↔ ∃ code, FaultCase i s code) ∧
      (t.st = .halt → FaultCase i s (fcauseByte t).toNat) ∧
      ∀ s', s.cfg.Legal → s.input.rst = false → fetch s = i → step s = .next s' →
        (s'.st = .halt ↔ t.st = .halt)

/-- 60_exceptions.md R197, R200: the state a fault leads to, and its outputs. The consumed inputs and
the count of the draws are the model's own fields (log 1, log 4). -/
def Obligations.FaultEntryKeepsEverythingElse : Prop :=
  ∀ s t : State, s.cfg.Legal → s.input.rst = false → s.st ≠ .halt →
    exec (fetch s) s = .next t → t.st = .halt →
      t.fcause ≠ .none ∧
        ∃ s', step s = .next s' ∧
          s' = { s with
            st := .halt, fcause := t.fcause, rdata := 0, inputs := s.inputs.tail,
            draws := s.draws + 1 } ∧
          s'.fault = true ∧ s'.busy = false ∧ (∀ p, s'.dout p = false) ∧ s'.irq = s'.irqEn

/-- 60_exceptions.md R198. The consumed inputs and the count of the draws are the model's own fields
(log 1, log 4). -/
def Obligations.HaltedBlockOnlyAnswersReads : Prop :=
  ∀ (i : Instr) (s : State), s.st = .halt →
    exec i s = .next { s with rdata := heldRead s i } ∧
      (s.cfg.Legal → s.input.rst = false → fetch s = i →
        step s = .next
          { s with rdata := heldRead s i, inputs := s.inputs.tail, draws := s.draws + 1 })

/-- 60_exceptions.md R199. -/
def Obligations.OnlyResetLeavesHalt : Prop :=
  ∀ s s' : State, s.st = .halt → step s = .next s' →
    (s.input.rst = false → s'.st = .halt ∧ s'.fault = true ∧ s'.fcause = s.fcause) ∧
      (s.input.rst = true → s'.st = .idle ∧ s'.fault = false ∧ s'.fcause = .none)

/-- 70_reset_and_hazards.md R220, R223 and 10_state.md R60: the state after a reset cycle, whatever
came before; the buffer is kept, and after power-up every byte of it is unwritten. The
configuration, the inputs and the count of the draws are the model's own (log 1, log 4, log 6). -/
def Obligations.ResetCycleGivesTheResetState : Prop :=
  (∀ s : State, s.cfg.Legal → s.input.rst = true →
    ∃ s', step s = .next s' ∧
      s' = { cfg := s.cfg, irqEn := false, done := false, pin := 0, addr := 0, len := 0, bptr := 0,
             fcause := .none, st := .idle, sh := 0, nb := 0, ph := 0, rem := 0, ptr := 0,
             lpin := 0, tcnt := 0, buf := s.buf, inputs := s.inputs.tail, rdata := 0,
             draws := s.draws + 1 } ∧
      s'.busy = false ∧ s'.fault = false ∧ s'.irq = false ∧ ∀ p, s'.dout p = false) ∧
    ∀ a, Memory.read a State.reset.buf = none

/-! ## Frames and invariants -/

/-- The frame of every transaction, from the rules of 40_register_access.md section 2: which
register only which transactions change. The configuration, the later inputs and the count of
the draws change by none; the engine's working registers only by a start command. -/
def Obligations.TransactionFrames : Prop :=
  ∀ (i : Instr) (s t : State), exec i s = .next t →
    t.cfg = s.cfg ∧ t.inputs = s.inputs ∧ t.draws = s.draws ∧
      ((∀ d, i ≠ .wrCtrl d) →
        t.irqEn = s.irqEn ∧ t.sh = s.sh ∧ t.nb = s.nb ∧ t.ph = s.ph ∧ t.rem = s.rem ∧
          t.ptr = s.ptr ∧ t.lpin = s.lpin) ∧
      t.tcnt = s.tcnt ∧
      ((∀ d, i ≠ .wrCtrl d) → (∀ d, i ≠ .wrStatus d) → t.done = s.done) ∧
      ((∀ d, i ≠ .wrCtrl d) → i ≠ .rdBdata → (∀ d, i ≠ .wrBdata d) →
        t.st = s.st ∧ t.fcause = s.fcause) ∧
      ((∀ d, i ≠ .wrPinsel d) → t.pin = s.pin) ∧
      ((∀ d, i ≠ .wrAddrL d) → (∀ d, i ≠ .wrAddrH d) → t.addr = s.addr) ∧
      ((∀ d, i ≠ .wrLenL d) → (∀ d, i ≠ .wrLenH d) → t.len = s.len) ∧
      ((∀ d, i ≠ .wrBptrL d) → (∀ d, i ≠ .wrBptrH d) → i ≠ .rdBdata → (∀ d, i ≠ .wrBdata d) →
        t.bptr = s.bptr) ∧
      ((∀ d, i ≠ .wrBdata d) → ∀ a, Memory.read a t.buf = Memory.read a s.buf) ∧
      ∀ a, a ≠ bdataAddress s → Memory.read a t.buf = Memory.read a s.buf

/-- The reset state meets the invariants (10_state.md R61). -/
def Obligations.ResetStateMeetsTheInvariants : Prop := Inv State.reset

/-- 10_state.md R61: the invariants, from every state that meets them, whatever the host does. -/
def Obligations.EveryStepKeepsTheInvariants : Prop :=
  ∀ s s' : State, Inv s → step s = .next s' →
    Inv s' ∧ (s'.st = .idle ∨ s'.st = .halt → ∀ p, s'.dout p = false)

/-- From a state that meets the invariants a cycle always has a next state: the faults of the block
lead to `HALT`, and the two ways the model can stop are out of reach (log 6, log 10). -/
def Obligations.NoStepStopsUnderTheInvariants : Prop :=
  ∀ s : State, Inv s → ∃ s', step s = .next s'

/-! ## Transmissions -/

/-- 70_reset_and_hazards.md R233, R236: a host that issues no reset, no start command and no `BDATA`
access in the next `k` cycles cuts no transmission off in them and changes no buffer byte. The
host's inputs name all these cycles, so nothing rests on the idle cycles past them (log 1). -/
def Obligations.QuietHostDisturbsNothing : Prop :=
  ∀ (s : State) (k : Nat), Inv s → s.st ≠ .halt → QuietFor k s →
    undisturbedFor k s = true ∧ ∃ s', runFor k s = .next s' ∧ s'.buf = s.buf

/-- 70_reset_and_hazards.md R229: the status the host reads in the cycle after a start command, for
`LEN >= 1` and for `LEN = 0`. -/
def Obligations.StatusInTheCycleAfterGo : Prop :=
  ∀ (s : State) (d : Byte) (rest : List Input), Inv s → s.st = .idle → d.getLsbD 0 = true →
    s.inputs = ⟨false, encode (.wrCtrl d)⟩ :: ⟨false, encode .rdStatus⟩ :: rest →
      (AcceptableGo s → ∃ s', runFor 2 s = .next s' ∧ s'.rdata = 0x01) ∧
      (s.len.toNat = 0 → ∃ s', runFor 2 s = .next s' ∧ s'.rdata = 0x02)

/-- 41_transmit_engine.md R164: the timeline of a transmission that no reset and no fault cuts off,
cycle by cycle from the one after the start command: bit `b` of byte `j` at phase `p` with its
level on the pin, then the trailer, then the end. The host may do anything else: byte `j` is sent
as the buffer held it in the cycle of its load, `8 * TBIT * j` cycles after the start command
(20_memory.md R84, 70_reset_and_hazards.md R230). -/
def Obligations.TransmissionTimeline : Prop :=
  ∀ s : State, Inv s → StartsIn s → ∃ t, step s = .next t ∧
    ∀ k, undisturbedFor k t = true →
      (∀ j b p, j < s.len.toNat → b < 8 → p < s.cfg.tbit → k = s.cfg.tbit * (8 * j + b) + p →
        ∃ u, runFor k t = .next u ∧ u.st = .shift ∧ u.ph = p ∧ u.nb.toNat = b ∧
          u.rem.toNat = s.len.toNat - 1 - j ∧ u.ptr.toNat = s.addr.toNat + j + 1 ∧
          u.lpin = s.pin ∧ u.busy = true ∧ u.done = false ∧
          ∃ w, runFor (8 * s.cfg.tbit * j) s = .next w ∧
            ∀ v, Memory.read (s.addr.toNat + j) w.buf = some v →
              u.dout s.pin.toNat =
                decide (p < if v.getLsbD (7 - b) = true then s.cfg.t1h else s.cfg.t0h)) ∧
      (∀ q, q < s.cfg.trail → k = 8 * s.cfg.tbit * s.len.toNat + q →
        ∃ u, runFor k t = .next u ∧ u.st = .trail ∧ u.tcnt = q ∧ u.busy = true ∧
          u.done = false) ∧
      (k = busyCycles s.cfg s.len.toNat →
        ∃ u, runFor k t = .next u ∧ u.st = .idle ∧ u.busy = false ∧ u.done = true)

/-- 41_transmit_engine.md R164, R165, R166: the waveform of a transmission that no reset and no fault
cuts off is the one its bytes stand for, each as the buffer held it in the cycle of its load
(20_memory.md R84, 70_reset_and_hazards.md R230), and every other pin stays low. -/
def Obligations.TransmissionWaveform : Prop :=
  ∀ (s t : State) (bytes : List Byte), Inv s → StartsIn s → bytes.length = s.len.toNat →
    HeldAtLoad s bytes → step s = .next t →
    undisturbedFor (busyCycles s.cfg s.len.toNat) t = true →
      pinTrace s.pin.toNat (busyCycles s.cfg s.len.toNat) t = transmissionWave s.cfg bytes ∧
        ∀ p, p ≠ s.pin.toNat →
          pinTrace p (busyCycles s.cfg s.len.toNat) t =
            List.replicate (busyCycles s.cfg s.len.toNat) false

/-- 41_transmit_engine.md R170: the decoder recovers the bytes a waveform stands for, under every
legal configuration. -/
def Obligations.DecoderInvertsTheWaveform : Prop :=
  ∀ (c : Config) (bytes : List Byte), c.Legal → decodeWave c (transmissionWave c bytes) = bytes

/-- 41_transmit_engine.md R170: the round trip, over the machine's own waveform, for every length
from 1 to the whole buffer, each byte as the buffer held it in the cycle of its load, and for
`LEN = 0` under a host that is quiet in the cycles of the waveform. The host's inputs name these
cycles, so nothing rests on the idle cycles past them (log 1). -/
def Obligations.DecoderRecoversTheTransmission : Prop :=
  (∀ (s t : State) (bytes : List Byte), Inv s → StartsIn s → bytes.length = s.len.toNat →
    HeldAtLoad s bytes → step s = .next t →
    undisturbedFor (busyCycles s.cfg s.len.toNat) t = true →
      decodeWave s.cfg (pinTrace s.pin.toNat (busyCycles s.cfg s.len.toNat) t) = bytes) ∧
    ∀ (s t : State) (d : Byte) (p : Nat), Inv s → s.st = .idle → s.input.rst = false →
      fetch s = .wrCtrl d → d.getLsbD 0 = true → s.len.toNat = 0 → step s = .next t →
      QuietFor (busyCycles s.cfg 0) t →
        decodeWave s.cfg (pinTrace p (busyCycles s.cfg 0) t) = []

/-- 00_scope.md R10, 41_transmit_engine.md R168: the defaults are legal and conforming, and give the
wire timing the spec lists. -/
def Obligations.DefaultsConform : Prop :=
  Config.default.Legal ∧ Config.default.Conforming ∧
    slotWave Config.default false = List.replicate 4 true ++ List.replicate 10 false ∧
    slotWave Config.default true = List.replicate 10 true ++ List.replicate 4 false ∧
    ∀ b, (byteWave Config.default b).length = 112

/-! ## Several instances -/

/-- 60_exceptions.md R208: one instance's cycle is its own step, whatever the others are or do, each
keeps its own number through a cycle and with it its `BASE`, and instances stay different ones. That
an instance is known by a number is the model's choice (log 17). -/
def Obligations.InstancesShareNothing : Prop :=
  (∀ (blocks : List State) (i j : Nat) (u : State), i ≠ j →
    (platformStep (blocks.set j u))[i]? = (platformStep blocks)[i]?) ∧
    (∀ s s' : State, step s = .next s' → s'.cfg = s.cfg ∧
      ∀ a, hostAddress s' a = hostAddress s a) ∧
    ∀ blocks blocks' : List State, DistinctInstances blocks →
      platformStep blocks = blocks'.map .next → DistinctInstances blocks'
end

