-- ==== Sys2Proof/Laws/Decode.lean ====
section
/-! SUPPORT. The fields of a transaction word and the facts about decoding that later proofs cite. -/

namespace Sys2Proof

/-- The bits of a word by field. -/
theorem busWord_getLsbD (v w : Bool) (a : Offset) (d : Byte) (i : Nat) :
    (busWord v w a d).getLsbD i =
      if i < 8 then d.getLsbD i
      else if i < 12 then a.getLsbD (i - 8)
      else if i = 12 then w
      else if i = 13 then v else false := by
  show (BitVec.ofBool v ++ BitVec.ofBool w ++ a ++ d : BitVec (1 + 1 + 4 + 8)).getLsbD i = _
  rw [BitVec.getLsbD_append, BitVec.getLsbD_append, BitVec.getLsbD_append]
  by_cases h8 : i < 8
  · simp [h8]
  · by_cases h12 : i < 12
    · have h : i - 8 < 4 := by omega
      simp [h8, h12, h]
    · by_cases h12' : i = 12
      · subst h12'
        simp
      · by_cases h13 : i = 13
        · subst h13
          simp
        · have h1 : ¬ i - 8 < 4 := by omega
          have h2 : ¬ i - 8 - 4 < 1 := by omega
          have h3 : 1 ≤ i - 8 - 4 - 1 := by omega
          simp only [h8, h12, h12', h13, h1, h2, if_false]
          exact BitVec.getLsbD_of_ge _ _ h3

@[simp] theorem opValid_busWord (v w : Bool) (a : Offset) (d : Byte) :
    opValid (busWord v w a d) = v := by
  simp [opValid, busWord_getLsbD, -BitVec.getLsbD_eq_getElem]

@[simp] theorem opWrite_busWord (v w : Bool) (a : Offset) (d : Byte) :
    opWrite (busWord v w a d) = w := by
  simp [opWrite, busWord_getLsbD, -BitVec.getLsbD_eq_getElem]

@[simp] theorem opOffset_busWord (v w : Bool) (a : Offset) (d : Byte) :
    opOffset (busWord v w a d) = a := by
  apply BitVec.eq_of_getLsbD_eq
  intro i hi
  have h1 : ¬ 8 + i < 8 := by omega
  have h2 : 8 + i < 12 := by omega
  rw [opOffset, BitVec.getLsbD_extractLsb', busWord_getLsbD]
  simp only [hi, h1, h2, if_true, if_false, decide_true, Bool.true_and]
  congr 1
  omega

@[simp] theorem opData_busWord (v w : Bool) (a : Offset) (d : Byte) :
    opData (busWord v w a d) = d := by
  apply BitVec.eq_of_getLsbD_eq
  intro i hi
  rw [opData, BitVec.getLsbD_extractLsb', busWord_getLsbD]
  simp [hi, -BitVec.getLsbD_eq_getElem]

/-- Every word is made of its four fields. -/
theorem busWord_fields (op : OpWord) :
    busWord (opValid op) (opWrite op) (opOffset op) (opData op) = op := by
  apply BitVec.eq_of_getLsbD_eq
  intro i hi
  rw [busWord_getLsbD, opData, opOffset, BitVec.getLsbD_extractLsb', BitVec.getLsbD_extractLsb']
  by_cases h8 : i < 8
  · simp [h8, -BitVec.getLsbD_eq_getElem]
  · by_cases h12 : i < 12
    · have h : i - 8 < 4 := by omega
      have h' : 8 + (i - 8) = i := by omega
      simp only [h8, h12, h, h', if_true, if_false, decide_true, Bool.true_and]
    · have h : i = 12 ∨ i = 13 := by omega
      rcases h with h | h <;> subst h <;> simp [opValid, opWrite]

theorem decodeOp_busWord (v w : Bool) (a : Offset) (d : Byte) :
    decodeOp (busWord v w a d) =
      if v then (if w then writeOf a d else readOf a) else .nop := by
  simp [decodeOp]

theorem readOf_wf (a : Offset) : (readOf a).wf = true := by
  revert a; decide

theorem writeOf_wf (a : Offset) (d : Byte) : (writeOf a d).wf = true := by
  unfold writeOf
  split
  case h_13 =>
    simp only [imp_false] at *
    simp only [Instr.wf, highReserved, decide_eq_true_eq]
    omega
  all_goals rfl

/-- A masked word fixes the fields under the mask of the rows with six fixed bits. -/
theorem and_rowMask (op fixed : OpWord) (h : op &&& 0x3F00 = fixed) :
    opValid op = opValid fixed ∧ opWrite op = opWrite fixed ∧ opOffset op = opOffset fixed := by
  subst h
  refine ⟨by simp [opValid], by simp [opWrite], ?_⟩
  ext i hi
  have : i = 0 ∨ i = 1 ∨ i = 2 ∨ i = 3 := by omega
  rcases this with h | h | h | h <;> subst h <;> simp [opOffset]

end Sys2Proof
end

