-- ==== Sys2Proof/Laws/State.lean ====
section
/-! SUPPORT. One lemma per field and per update of the state, so that no proof unfolds an update. -/

namespace Sys2Proof.Machine

section setIrqEn

@[simp] theorem State.setIrqEn_cfg (b : Bool) (s : State) : (s.setIrqEn b).cfg = s.cfg := rfl
@[simp] theorem State.setIrqEn_irqEn (b : Bool) (s : State) : (s.setIrqEn b).irqEn = b := rfl
@[simp] theorem State.setIrqEn_done (b : Bool) (s : State) : (s.setIrqEn b).done = s.done := rfl
@[simp] theorem State.setIrqEn_pin (b : Bool) (s : State) : (s.setIrqEn b).pin = s.pin := rfl
@[simp] theorem State.setIrqEn_addr (b : Bool) (s : State) : (s.setIrqEn b).addr = s.addr := rfl
@[simp] theorem State.setIrqEn_len (b : Bool) (s : State) : (s.setIrqEn b).len = s.len := rfl
@[simp] theorem State.setIrqEn_bptr (b : Bool) (s : State) : (s.setIrqEn b).bptr = s.bptr := rfl
@[simp] theorem State.setIrqEn_fcause (b : Bool) (s : State) : (s.setIrqEn b).fcause = s.fcause := rfl
@[simp] theorem State.setIrqEn_st (b : Bool) (s : State) : (s.setIrqEn b).st = s.st := rfl
@[simp] theorem State.setIrqEn_sh (b : Bool) (s : State) : (s.setIrqEn b).sh = s.sh := rfl
@[simp] theorem State.setIrqEn_nb (b : Bool) (s : State) : (s.setIrqEn b).nb = s.nb := rfl
@[simp] theorem State.setIrqEn_ph (b : Bool) (s : State) : (s.setIrqEn b).ph = s.ph := rfl
@[simp] theorem State.setIrqEn_rem (b : Bool) (s : State) : (s.setIrqEn b).rem = s.rem := rfl
@[simp] theorem State.setIrqEn_ptr (b : Bool) (s : State) : (s.setIrqEn b).ptr = s.ptr := rfl
@[simp] theorem State.setIrqEn_lpin (b : Bool) (s : State) : (s.setIrqEn b).lpin = s.lpin := rfl
@[simp] theorem State.setIrqEn_tcnt (b : Bool) (s : State) : (s.setIrqEn b).tcnt = s.tcnt := rfl
@[simp] theorem State.setIrqEn_buf (b : Bool) (s : State) : (s.setIrqEn b).buf = s.buf := rfl
@[simp] theorem State.setIrqEn_inputs (b : Bool) (s : State) : (s.setIrqEn b).inputs = s.inputs := rfl
@[simp] theorem State.setIrqEn_rdata (b : Bool) (s : State) : (s.setIrqEn b).rdata = s.rdata := rfl
@[simp] theorem State.setIrqEn_draws (b : Bool) (s : State) : (s.setIrqEn b).draws = s.draws := rfl

end setIrqEn

section setDone

@[simp] theorem State.setDone_cfg (b : Bool) (s : State) : (s.setDone b).cfg = s.cfg := rfl
@[simp] theorem State.setDone_irqEn (b : Bool) (s : State) : (s.setDone b).irqEn = s.irqEn := rfl
@[simp] theorem State.setDone_done (b : Bool) (s : State) : (s.setDone b).done = b := rfl
@[simp] theorem State.setDone_pin (b : Bool) (s : State) : (s.setDone b).pin = s.pin := rfl
@[simp] theorem State.setDone_addr (b : Bool) (s : State) : (s.setDone b).addr = s.addr := rfl
@[simp] theorem State.setDone_len (b : Bool) (s : State) : (s.setDone b).len = s.len := rfl
@[simp] theorem State.setDone_bptr (b : Bool) (s : State) : (s.setDone b).bptr = s.bptr := rfl
@[simp] theorem State.setDone_fcause (b : Bool) (s : State) : (s.setDone b).fcause = s.fcause := rfl
@[simp] theorem State.setDone_st (b : Bool) (s : State) : (s.setDone b).st = s.st := rfl
@[simp] theorem State.setDone_sh (b : Bool) (s : State) : (s.setDone b).sh = s.sh := rfl
@[simp] theorem State.setDone_nb (b : Bool) (s : State) : (s.setDone b).nb = s.nb := rfl
@[simp] theorem State.setDone_ph (b : Bool) (s : State) : (s.setDone b).ph = s.ph := rfl
@[simp] theorem State.setDone_rem (b : Bool) (s : State) : (s.setDone b).rem = s.rem := rfl
@[simp] theorem State.setDone_ptr (b : Bool) (s : State) : (s.setDone b).ptr = s.ptr := rfl
@[simp] theorem State.setDone_lpin (b : Bool) (s : State) : (s.setDone b).lpin = s.lpin := rfl
@[simp] theorem State.setDone_tcnt (b : Bool) (s : State) : (s.setDone b).tcnt = s.tcnt := rfl
@[simp] theorem State.setDone_buf (b : Bool) (s : State) : (s.setDone b).buf = s.buf := rfl
@[simp] theorem State.setDone_inputs (b : Bool) (s : State) : (s.setDone b).inputs = s.inputs := rfl
@[simp] theorem State.setDone_rdata (b : Bool) (s : State) : (s.setDone b).rdata = s.rdata := rfl
@[simp] theorem State.setDone_draws (b : Bool) (s : State) : (s.setDone b).draws = s.draws := rfl

end setDone

section setPin

@[simp] theorem State.setPin_cfg (p : BitVec 3) (s : State) : (s.setPin p).cfg = s.cfg := rfl
@[simp] theorem State.setPin_irqEn (p : BitVec 3) (s : State) : (s.setPin p).irqEn = s.irqEn := rfl
@[simp] theorem State.setPin_done (p : BitVec 3) (s : State) : (s.setPin p).done = s.done := rfl
@[simp] theorem State.setPin_pin (p : BitVec 3) (s : State) : (s.setPin p).pin = p := rfl
@[simp] theorem State.setPin_addr (p : BitVec 3) (s : State) : (s.setPin p).addr = s.addr := rfl
@[simp] theorem State.setPin_len (p : BitVec 3) (s : State) : (s.setPin p).len = s.len := rfl
@[simp] theorem State.setPin_bptr (p : BitVec 3) (s : State) : (s.setPin p).bptr = s.bptr := rfl
@[simp] theorem State.setPin_fcause (p : BitVec 3) (s : State) : (s.setPin p).fcause = s.fcause := rfl
@[simp] theorem State.setPin_st (p : BitVec 3) (s : State) : (s.setPin p).st = s.st := rfl
@[simp] theorem State.setPin_sh (p : BitVec 3) (s : State) : (s.setPin p).sh = s.sh := rfl
@[simp] theorem State.setPin_nb (p : BitVec 3) (s : State) : (s.setPin p).nb = s.nb := rfl
@[simp] theorem State.setPin_ph (p : BitVec 3) (s : State) : (s.setPin p).ph = s.ph := rfl
@[simp] theorem State.setPin_rem (p : BitVec 3) (s : State) : (s.setPin p).rem = s.rem := rfl
@[simp] theorem State.setPin_ptr (p : BitVec 3) (s : State) : (s.setPin p).ptr = s.ptr := rfl
@[simp] theorem State.setPin_lpin (p : BitVec 3) (s : State) : (s.setPin p).lpin = s.lpin := rfl
@[simp] theorem State.setPin_tcnt (p : BitVec 3) (s : State) : (s.setPin p).tcnt = s.tcnt := rfl
@[simp] theorem State.setPin_buf (p : BitVec 3) (s : State) : (s.setPin p).buf = s.buf := rfl
@[simp] theorem State.setPin_inputs (p : BitVec 3) (s : State) : (s.setPin p).inputs = s.inputs := rfl
@[simp] theorem State.setPin_rdata (p : BitVec 3) (s : State) : (s.setPin p).rdata = s.rdata := rfl
@[simp] theorem State.setPin_draws (p : BitVec 3) (s : State) : (s.setPin p).draws = s.draws := rfl

end setPin

section drive

@[simp] theorem State.drive_cfg (v : Byte) (s : State) : (s.drive v).cfg = s.cfg := rfl
@[simp] theorem State.drive_irqEn (v : Byte) (s : State) : (s.drive v).irqEn = s.irqEn := rfl
@[simp] theorem State.drive_done (v : Byte) (s : State) : (s.drive v).done = s.done := rfl
@[simp] theorem State.drive_pin (v : Byte) (s : State) : (s.drive v).pin = s.pin := rfl
@[simp] theorem State.drive_addr (v : Byte) (s : State) : (s.drive v).addr = s.addr := rfl
@[simp] theorem State.drive_len (v : Byte) (s : State) : (s.drive v).len = s.len := rfl
@[simp] theorem State.drive_bptr (v : Byte) (s : State) : (s.drive v).bptr = s.bptr := rfl
@[simp] theorem State.drive_fcause (v : Byte) (s : State) : (s.drive v).fcause = s.fcause := rfl
@[simp] theorem State.drive_st (v : Byte) (s : State) : (s.drive v).st = s.st := rfl
@[simp] theorem State.drive_sh (v : Byte) (s : State) : (s.drive v).sh = s.sh := rfl
@[simp] theorem State.drive_nb (v : Byte) (s : State) : (s.drive v).nb = s.nb := rfl
@[simp] theorem State.drive_ph (v : Byte) (s : State) : (s.drive v).ph = s.ph := rfl
@[simp] theorem State.drive_rem (v : Byte) (s : State) : (s.drive v).rem = s.rem := rfl
@[simp] theorem State.drive_ptr (v : Byte) (s : State) : (s.drive v).ptr = s.ptr := rfl
@[simp] theorem State.drive_lpin (v : Byte) (s : State) : (s.drive v).lpin = s.lpin := rfl
@[simp] theorem State.drive_tcnt (v : Byte) (s : State) : (s.drive v).tcnt = s.tcnt := rfl
@[simp] theorem State.drive_buf (v : Byte) (s : State) : (s.drive v).buf = s.buf := rfl
@[simp] theorem State.drive_inputs (v : Byte) (s : State) : (s.drive v).inputs = s.inputs := rfl
@[simp] theorem State.drive_rdata (v : Byte) (s : State) : (s.drive v).rdata = v := rfl
@[simp] theorem State.drive_draws (v : Byte) (s : State) : (s.drive v).draws = s.draws := rfl

end drive

section raise

@[simp] theorem State.raise_cfg (c : FaultCode) (s : State) : (s.raise c).cfg = s.cfg := rfl
@[simp] theorem State.raise_irqEn (c : FaultCode) (s : State) : (s.raise c).irqEn = s.irqEn := rfl
@[simp] theorem State.raise_done (c : FaultCode) (s : State) : (s.raise c).done = s.done := rfl
@[simp] theorem State.raise_pin (c : FaultCode) (s : State) : (s.raise c).pin = s.pin := rfl
@[simp] theorem State.raise_addr (c : FaultCode) (s : State) : (s.raise c).addr = s.addr := rfl
@[simp] theorem State.raise_len (c : FaultCode) (s : State) : (s.raise c).len = s.len := rfl
@[simp] theorem State.raise_bptr (c : FaultCode) (s : State) : (s.raise c).bptr = s.bptr := rfl
@[simp] theorem State.raise_fcause (c : FaultCode) (s : State) : (s.raise c).fcause = c := rfl
@[simp] theorem State.raise_st (c : FaultCode) (s : State) : (s.raise c).st = .halt := rfl
@[simp] theorem State.raise_sh (c : FaultCode) (s : State) : (s.raise c).sh = s.sh := rfl
@[simp] theorem State.raise_nb (c : FaultCode) (s : State) : (s.raise c).nb = s.nb := rfl
@[simp] theorem State.raise_ph (c : FaultCode) (s : State) : (s.raise c).ph = s.ph := rfl
@[simp] theorem State.raise_rem (c : FaultCode) (s : State) : (s.raise c).rem = s.rem := rfl
@[simp] theorem State.raise_ptr (c : FaultCode) (s : State) : (s.raise c).ptr = s.ptr := rfl
@[simp] theorem State.raise_lpin (c : FaultCode) (s : State) : (s.raise c).lpin = s.lpin := rfl
@[simp] theorem State.raise_tcnt (c : FaultCode) (s : State) : (s.raise c).tcnt = s.tcnt := rfl
@[simp] theorem State.raise_buf (c : FaultCode) (s : State) : (s.raise c).buf = s.buf := rfl
@[simp] theorem State.raise_inputs (c : FaultCode) (s : State) : (s.raise c).inputs = s.inputs := rfl
@[simp] theorem State.raise_rdata (c : FaultCode) (s : State) : (s.raise c).rdata = s.rdata := rfl
@[simp] theorem State.raise_draws (c : FaultCode) (s : State) : (s.raise c).draws = s.draws := rfl

end raise

section advance

@[simp] theorem State.advance_cfg (s : State) : (s.advance).cfg = s.cfg := rfl
@[simp] theorem State.advance_irqEn (s : State) : (s.advance).irqEn = s.irqEn := rfl
@[simp] theorem State.advance_done (s : State) : (s.advance).done = s.done := rfl
@[simp] theorem State.advance_pin (s : State) : (s.advance).pin = s.pin := rfl
@[simp] theorem State.advance_addr (s : State) : (s.advance).addr = s.addr := rfl
@[simp] theorem State.advance_len (s : State) : (s.advance).len = s.len := rfl
@[simp] theorem State.advance_bptr (s : State) : (s.advance).bptr = s.bptr := rfl
@[simp] theorem State.advance_fcause (s : State) : (s.advance).fcause = s.fcause := rfl
@[simp] theorem State.advance_st (s : State) : (s.advance).st = s.st := rfl
@[simp] theorem State.advance_sh (s : State) : (s.advance).sh = s.sh := rfl
@[simp] theorem State.advance_nb (s : State) : (s.advance).nb = s.nb := rfl
@[simp] theorem State.advance_ph (s : State) : (s.advance).ph = s.ph := rfl
@[simp] theorem State.advance_rem (s : State) : (s.advance).rem = s.rem := rfl
@[simp] theorem State.advance_ptr (s : State) : (s.advance).ptr = s.ptr := rfl
@[simp] theorem State.advance_lpin (s : State) : (s.advance).lpin = s.lpin := rfl
@[simp] theorem State.advance_tcnt (s : State) : (s.advance).tcnt = s.tcnt := rfl
@[simp] theorem State.advance_buf (s : State) : (s.advance).buf = s.buf := rfl
@[simp] theorem State.advance_inputs (s : State) : (s.advance).inputs = s.inputs.tail := rfl
@[simp] theorem State.advance_rdata (s : State) : (s.advance).rdata = s.rdata := rfl
@[simp] theorem State.advance_draws (s : State) : (s.advance).draws = s.draws + 1 := rfl

end advance

section withInput

@[simp] theorem State.withInput_cfg (s : State) (x : Input) : (s.withInput x).cfg = s.cfg := rfl
@[simp] theorem State.withInput_irqEn (s : State) (x : Input) : (s.withInput x).irqEn = s.irqEn := rfl
@[simp] theorem State.withInput_done (s : State) (x : Input) : (s.withInput x).done = s.done := rfl
@[simp] theorem State.withInput_pin (s : State) (x : Input) : (s.withInput x).pin = s.pin := rfl
@[simp] theorem State.withInput_addr (s : State) (x : Input) : (s.withInput x).addr = s.addr := rfl
@[simp] theorem State.withInput_len (s : State) (x : Input) : (s.withInput x).len = s.len := rfl
@[simp] theorem State.withInput_bptr (s : State) (x : Input) : (s.withInput x).bptr = s.bptr := rfl
@[simp] theorem State.withInput_fcause (s : State) (x : Input) : (s.withInput x).fcause = s.fcause := rfl
@[simp] theorem State.withInput_st (s : State) (x : Input) : (s.withInput x).st = s.st := rfl
@[simp] theorem State.withInput_sh (s : State) (x : Input) : (s.withInput x).sh = s.sh := rfl
@[simp] theorem State.withInput_nb (s : State) (x : Input) : (s.withInput x).nb = s.nb := rfl
@[simp] theorem State.withInput_ph (s : State) (x : Input) : (s.withInput x).ph = s.ph := rfl
@[simp] theorem State.withInput_rem (s : State) (x : Input) : (s.withInput x).rem = s.rem := rfl
@[simp] theorem State.withInput_ptr (s : State) (x : Input) : (s.withInput x).ptr = s.ptr := rfl
@[simp] theorem State.withInput_lpin (s : State) (x : Input) : (s.withInput x).lpin = s.lpin := rfl
@[simp] theorem State.withInput_tcnt (s : State) (x : Input) : (s.withInput x).tcnt = s.tcnt := rfl
@[simp] theorem State.withInput_buf (s : State) (x : Input) : (s.withInput x).buf = s.buf := rfl
@[simp] theorem State.withInput_inputs (s : State) (x : Input) : (s.withInput x).inputs = x :: s.inputs.tail := rfl
@[simp] theorem State.withInput_rdata (s : State) (x : Input) : (s.withInput x).rdata = s.rdata := rfl
@[simp] theorem State.withInput_draws (s : State) (x : Input) : (s.withInput x).draws = s.draws := rfl

end withInput

section bumpBptr

@[simp] theorem State.bumpBptr_cfg (s : State) : (s.bumpBptr).cfg = s.cfg := rfl
@[simp] theorem State.bumpBptr_irqEn (s : State) : (s.bumpBptr).irqEn = s.irqEn := rfl
@[simp] theorem State.bumpBptr_done (s : State) : (s.bumpBptr).done = s.done := rfl
@[simp] theorem State.bumpBptr_pin (s : State) : (s.bumpBptr).pin = s.pin := rfl
@[simp] theorem State.bumpBptr_addr (s : State) : (s.bumpBptr).addr = s.addr := rfl
@[simp] theorem State.bumpBptr_len (s : State) : (s.bumpBptr).len = s.len := rfl
@[simp] theorem State.bumpBptr_bptr (s : State) : (s.bumpBptr).bptr = s.bptr + 1 := rfl
@[simp] theorem State.bumpBptr_fcause (s : State) : (s.bumpBptr).fcause = s.fcause := rfl
@[simp] theorem State.bumpBptr_st (s : State) : (s.bumpBptr).st = s.st := rfl
@[simp] theorem State.bumpBptr_sh (s : State) : (s.bumpBptr).sh = s.sh := rfl
@[simp] theorem State.bumpBptr_nb (s : State) : (s.bumpBptr).nb = s.nb := rfl
@[simp] theorem State.bumpBptr_ph (s : State) : (s.bumpBptr).ph = s.ph := rfl
@[simp] theorem State.bumpBptr_rem (s : State) : (s.bumpBptr).rem = s.rem := rfl
@[simp] theorem State.bumpBptr_ptr (s : State) : (s.bumpBptr).ptr = s.ptr := rfl
@[simp] theorem State.bumpBptr_lpin (s : State) : (s.bumpBptr).lpin = s.lpin := rfl
@[simp] theorem State.bumpBptr_tcnt (s : State) : (s.bumpBptr).tcnt = s.tcnt := rfl
@[simp] theorem State.bumpBptr_buf (s : State) : (s.bumpBptr).buf = s.buf := rfl
@[simp] theorem State.bumpBptr_inputs (s : State) : (s.bumpBptr).inputs = s.inputs := rfl
@[simp] theorem State.bumpBptr_rdata (s : State) : (s.bumpBptr).rdata = s.rdata := rfl
@[simp] theorem State.bumpBptr_draws (s : State) : (s.bumpBptr).draws = s.draws := rfl

end bumpBptr

section storeAtBptr

@[simp] theorem State.storeAtBptr_cfg (d : Byte) (s : State) : (s.storeAtBptr d).cfg = s.cfg := rfl
@[simp] theorem State.storeAtBptr_irqEn (d : Byte) (s : State) : (s.storeAtBptr d).irqEn = s.irqEn := rfl
@[simp] theorem State.storeAtBptr_done (d : Byte) (s : State) : (s.storeAtBptr d).done = s.done := rfl
@[simp] theorem State.storeAtBptr_pin (d : Byte) (s : State) : (s.storeAtBptr d).pin = s.pin := rfl
@[simp] theorem State.storeAtBptr_addr (d : Byte) (s : State) : (s.storeAtBptr d).addr = s.addr := rfl
@[simp] theorem State.storeAtBptr_len (d : Byte) (s : State) : (s.storeAtBptr d).len = s.len := rfl
@[simp] theorem State.storeAtBptr_bptr (d : Byte) (s : State) : (s.storeAtBptr d).bptr = s.bptr := rfl
@[simp] theorem State.storeAtBptr_fcause (d : Byte) (s : State) : (s.storeAtBptr d).fcause = s.fcause := rfl
@[simp] theorem State.storeAtBptr_st (d : Byte) (s : State) : (s.storeAtBptr d).st = s.st := rfl
@[simp] theorem State.storeAtBptr_sh (d : Byte) (s : State) : (s.storeAtBptr d).sh = s.sh := rfl
@[simp] theorem State.storeAtBptr_nb (d : Byte) (s : State) : (s.storeAtBptr d).nb = s.nb := rfl
@[simp] theorem State.storeAtBptr_ph (d : Byte) (s : State) : (s.storeAtBptr d).ph = s.ph := rfl
@[simp] theorem State.storeAtBptr_rem (d : Byte) (s : State) : (s.storeAtBptr d).rem = s.rem := rfl
@[simp] theorem State.storeAtBptr_ptr (d : Byte) (s : State) : (s.storeAtBptr d).ptr = s.ptr := rfl
@[simp] theorem State.storeAtBptr_lpin (d : Byte) (s : State) : (s.storeAtBptr d).lpin = s.lpin := rfl
@[simp] theorem State.storeAtBptr_tcnt (d : Byte) (s : State) : (s.storeAtBptr d).tcnt = s.tcnt := rfl
@[simp] theorem State.storeAtBptr_buf (d : Byte) (s : State) : (s.storeAtBptr d).buf = Memory.write s.bptr.toNat d s.buf := rfl
@[simp] theorem State.storeAtBptr_inputs (d : Byte) (s : State) : (s.storeAtBptr d).inputs = s.inputs := rfl
@[simp] theorem State.storeAtBptr_rdata (d : Byte) (s : State) : (s.storeAtBptr d).rdata = s.rdata := rfl
@[simp] theorem State.storeAtBptr_draws (d : Byte) (s : State) : (s.storeAtBptr d).draws = s.draws := rfl

end storeAtBptr

section resetBlock

@[simp] theorem State.resetBlock_cfg (s : State) : (s.resetBlock).cfg = s.cfg := rfl
@[simp] theorem State.resetBlock_irqEn (s : State) : (s.resetBlock).irqEn = false := rfl
@[simp] theorem State.resetBlock_done (s : State) : (s.resetBlock).done = false := rfl
@[simp] theorem State.resetBlock_pin (s : State) : (s.resetBlock).pin = 0 := rfl
@[simp] theorem State.resetBlock_addr (s : State) : (s.resetBlock).addr = 0 := rfl
@[simp] theorem State.resetBlock_len (s : State) : (s.resetBlock).len = 0 := rfl
@[simp] theorem State.resetBlock_bptr (s : State) : (s.resetBlock).bptr = 0 := rfl
@[simp] theorem State.resetBlock_fcause (s : State) : (s.resetBlock).fcause = .none := rfl
@[simp] theorem State.resetBlock_st (s : State) : (s.resetBlock).st = .idle := rfl
@[simp] theorem State.resetBlock_sh (s : State) : (s.resetBlock).sh = 0 := rfl
@[simp] theorem State.resetBlock_nb (s : State) : (s.resetBlock).nb = 0 := rfl
@[simp] theorem State.resetBlock_ph (s : State) : (s.resetBlock).ph = 0 := rfl
@[simp] theorem State.resetBlock_rem (s : State) : (s.resetBlock).rem = 0 := rfl
@[simp] theorem State.resetBlock_ptr (s : State) : (s.resetBlock).ptr = 0 := rfl
@[simp] theorem State.resetBlock_lpin (s : State) : (s.resetBlock).lpin = 0 := rfl
@[simp] theorem State.resetBlock_tcnt (s : State) : (s.resetBlock).tcnt = 0 := rfl
@[simp] theorem State.resetBlock_buf (s : State) : (s.resetBlock).buf = s.buf := rfl
@[simp] theorem State.resetBlock_inputs (s : State) : (s.resetBlock).inputs = s.inputs := rfl
@[simp] theorem State.resetBlock_rdata (s : State) : (s.resetBlock).rdata = 0 := rfl
@[simp] theorem State.resetBlock_draws (s : State) : (s.resetBlock).draws = s.draws := rfl

end resetBlock

section zeroStart

@[simp] theorem zeroStart_cfg (s : State) : (zeroStart s).cfg = s.cfg := rfl
@[simp] theorem zeroStart_irqEn (s : State) : (zeroStart s).irqEn = s.irqEn := rfl
@[simp] theorem zeroStart_done (s : State) : (zeroStart s).done = true := rfl
@[simp] theorem zeroStart_pin (s : State) : (zeroStart s).pin = s.pin := rfl
@[simp] theorem zeroStart_addr (s : State) : (zeroStart s).addr = s.addr := rfl
@[simp] theorem zeroStart_len (s : State) : (zeroStart s).len = s.len := rfl
@[simp] theorem zeroStart_bptr (s : State) : (zeroStart s).bptr = s.bptr := rfl
@[simp] theorem zeroStart_fcause (s : State) : (zeroStart s).fcause = s.fcause := rfl
@[simp] theorem zeroStart_st (s : State) : (zeroStart s).st = s.st := rfl
@[simp] theorem zeroStart_sh (s : State) : (zeroStart s).sh = s.sh := rfl
@[simp] theorem zeroStart_nb (s : State) : (zeroStart s).nb = s.nb := rfl
@[simp] theorem zeroStart_ph (s : State) : (zeroStart s).ph = s.ph := rfl
@[simp] theorem zeroStart_rem (s : State) : (zeroStart s).rem = s.rem := rfl
@[simp] theorem zeroStart_ptr (s : State) : (zeroStart s).ptr = s.ptr := rfl
@[simp] theorem zeroStart_lpin (s : State) : (zeroStart s).lpin = s.lpin := rfl
@[simp] theorem zeroStart_tcnt (s : State) : (zeroStart s).tcnt = s.tcnt := rfl
@[simp] theorem zeroStart_buf (s : State) : (zeroStart s).buf = s.buf := rfl
@[simp] theorem zeroStart_inputs (s : State) : (zeroStart s).inputs = s.inputs := rfl
@[simp] theorem zeroStart_rdata (s : State) : (zeroStart s).rdata = s.rdata := rfl
@[simp] theorem zeroStart_draws (s : State) : (zeroStart s).draws = s.draws := rfl

end zeroStart

section start

@[simp] theorem start_cfg (s : State) : (start s).cfg = s.cfg := rfl
@[simp] theorem start_irqEn (s : State) : (start s).irqEn = s.irqEn := rfl
@[simp] theorem start_done (s : State) : (start s).done = false := rfl
@[simp] theorem start_pin (s : State) : (start s).pin = s.pin := rfl
@[simp] theorem start_addr (s : State) : (start s).addr = s.addr := rfl
@[simp] theorem start_len (s : State) : (start s).len = s.len := rfl
@[simp] theorem start_bptr (s : State) : (start s).bptr = s.bptr := rfl
@[simp] theorem start_fcause (s : State) : (start s).fcause = s.fcause := rfl
@[simp] theorem start_st (s : State) : (start s).st = .shift := rfl
@[simp] theorem start_sh (s : State) : (start s).sh = s.engineLoad s.addr := rfl
@[simp] theorem start_nb (s : State) : (start s).nb = 0 := rfl
@[simp] theorem start_ph (s : State) : (start s).ph = 0 := rfl
@[simp] theorem start_rem (s : State) : (start s).rem = s.len - 1 := rfl
@[simp] theorem start_ptr (s : State) : (start s).ptr = s.addr + 1 := rfl
@[simp] theorem start_lpin (s : State) : (start s).lpin = s.pin := rfl
@[simp] theorem start_tcnt (s : State) : (start s).tcnt = s.tcnt := rfl
@[simp] theorem start_buf (s : State) : (start s).buf = s.buf := rfl
@[simp] theorem start_inputs (s : State) : (start s).inputs = s.inputs := rfl
@[simp] theorem start_rdata (s : State) : (start s).rdata = s.rdata := rfl
@[simp] theorem start_draws (s : State) : (start s).draws = s.draws := rfl

end start

section input

@[simp] theorem State.withInput_input (s : State) (x : Input) : (s.withInput x).input = x := rfl

@[simp] theorem State.drive_input (v : Byte) (s : State) : (s.drive v).input = s.input := rfl

@[simp] theorem State.drive_drive (v w : Byte) (s : State) : (s.drive v).drive w = s.drive w := rfl

end input

section pair

@[simp] theorem RegPair.set_cfg (p : RegPair) (v : Half) (s : State) : (p.set v s).cfg = s.cfg := by
  cases p <;> rfl

@[simp] theorem RegPair.set_irqEn (p : RegPair) (v : Half) (s : State) : (p.set v s).irqEn = s.irqEn := by
  cases p <;> rfl

@[simp] theorem RegPair.set_done (p : RegPair) (v : Half) (s : State) : (p.set v s).done = s.done := by
  cases p <;> rfl

@[simp] theorem RegPair.set_pin (p : RegPair) (v : Half) (s : State) : (p.set v s).pin = s.pin := by
  cases p <;> rfl

@[simp] theorem RegPair.set_fcause (p : RegPair) (v : Half) (s : State) : (p.set v s).fcause = s.fcause := by
  cases p <;> rfl

@[simp] theorem RegPair.set_st (p : RegPair) (v : Half) (s : State) : (p.set v s).st = s.st := by
  cases p <;> rfl

@[simp] theorem RegPair.set_sh (p : RegPair) (v : Half) (s : State) : (p.set v s).sh = s.sh := by
  cases p <;> rfl

@[simp] theorem RegPair.set_nb (p : RegPair) (v : Half) (s : State) : (p.set v s).nb = s.nb := by
  cases p <;> rfl

@[simp] theorem RegPair.set_ph (p : RegPair) (v : Half) (s : State) : (p.set v s).ph = s.ph := by
  cases p <;> rfl

@[simp] theorem RegPair.set_rem (p : RegPair) (v : Half) (s : State) : (p.set v s).rem = s.rem := by
  cases p <;> rfl

@[simp] theorem RegPair.set_ptr (p : RegPair) (v : Half) (s : State) : (p.set v s).ptr = s.ptr := by
  cases p <;> rfl

@[simp] theorem RegPair.set_lpin (p : RegPair) (v : Half) (s : State) : (p.set v s).lpin = s.lpin := by
  cases p <;> rfl

@[simp] theorem RegPair.set_tcnt (p : RegPair) (v : Half) (s : State) : (p.set v s).tcnt = s.tcnt := by
  cases p <;> rfl

@[simp] theorem RegPair.set_buf (p : RegPair) (v : Half) (s : State) : (p.set v s).buf = s.buf := by
  cases p <;> rfl

@[simp] theorem RegPair.set_inputs (p : RegPair) (v : Half) (s : State) : (p.set v s).inputs = s.inputs := by
  cases p <;> rfl

@[simp] theorem RegPair.set_rdata (p : RegPair) (v : Half) (s : State) : (p.set v s).rdata = s.rdata := by
  cases p <;> rfl

@[simp] theorem RegPair.set_draws (p : RegPair) (v : Half) (s : State) : (p.set v s).draws = s.draws := by
  cases p <;> rfl

@[simp] theorem RegPair.get_set (p : RegPair) (v : Half) (s : State) : p.get (p.set v s) = v := by
  cases p <;> rfl

theorem RegPair.get_set_of_ne (p q : RegPair) (v : Half) (s : State) (h : q ≠ p) :
    q.get (p.set v s) = q.get s := by
  cases p <;> cases q <;> first | rfl | exact absurd rfl h

@[simp] theorem RegPair.get_drive (p : RegPair) (v : Byte) (s : State) :
    p.get (s.drive v) = p.get s := by
  cases p <;> rfl

end pair

section act

@[simp] theorem EngineAct.apply_cfg (a : EngineAct) (s t : State) : (a.apply s t).cfg = t.cfg := by
  cases a <;> rfl

@[simp] theorem EngineAct.apply_irqEn (a : EngineAct) (s t : State) : (a.apply s t).irqEn = t.irqEn := by
  cases a <;> rfl

@[simp] theorem EngineAct.apply_pin (a : EngineAct) (s t : State) : (a.apply s t).pin = t.pin := by
  cases a <;> rfl

@[simp] theorem EngineAct.apply_addr (a : EngineAct) (s t : State) : (a.apply s t).addr = t.addr := by
  cases a <;> rfl

@[simp] theorem EngineAct.apply_len (a : EngineAct) (s t : State) : (a.apply s t).len = t.len := by
  cases a <;> rfl

@[simp] theorem EngineAct.apply_bptr (a : EngineAct) (s t : State) : (a.apply s t).bptr = t.bptr := by
  cases a <;> rfl

@[simp] theorem EngineAct.apply_fcause (a : EngineAct) (s t : State) : (a.apply s t).fcause = t.fcause := by
  cases a <;> rfl

@[simp] theorem EngineAct.apply_lpin (a : EngineAct) (s t : State) : (a.apply s t).lpin = t.lpin := by
  cases a <;> rfl

@[simp] theorem EngineAct.apply_buf (a : EngineAct) (s t : State) : (a.apply s t).buf = t.buf := by
  cases a <;> rfl

@[simp] theorem EngineAct.apply_inputs (a : EngineAct) (s t : State) : (a.apply s t).inputs = t.inputs := by
  cases a <;> rfl

@[simp] theorem EngineAct.apply_rdata (a : EngineAct) (s t : State) : (a.apply s t).rdata = t.rdata := by
  cases a <;> rfl

@[simp] theorem EngineAct.apply_draws (a : EngineAct) (s t : State) : (a.apply s t).draws = t.draws := by
  cases a <;> rfl

end act

end Sys2Proof.Machine
end

