-- ==== Sys2Proof/Laws/Engine.lean ====
section
/-! SUPPORT. What the start command and the engine step can do, said once. -/

namespace Sys2Proof.Machine

theorem busy_iff (s : State) : s.busy = true ↔ s.st = .shift ∨ s.st = .trail := by
  simp [State.busy]

theorem busy_eq_false_iff (s : State) : s.busy = false ↔ s.st ≠ .shift ∧ s.st ≠ .trail := by
  simp [State.busy]

theorem fault_iff (s : State) : s.fault = true ↔ s.st = .halt := by
  simp [State.fault]

/-- The 17-bit sum never wraps (41_transmit_engine.md R153). -/
theorem rangeEnd_toNat (s : State) : (rangeEnd s).toNat = s.addr.toNat + s.len.toNat := by
  have h1 := s.addr.isLt
  have h2 := s.len.isLt
  simp only [rangeEnd, BitVec.toNat_add, BitVec.toNat_setWidth]
  omega

/-- A start command passes its checks exactly when it is a start that the spec accepts. -/
theorem goCheck_eq_none_iff (s : State) :
    goCheck s = none ↔
      s.busy = false ∧
        (s.len = 0 ∨
          s.pin.toNat < s.cfg.numPins ∧ s.addr.toNat + s.len.toNat ≤ s.cfg.bufSize) := by
  unfold goCheck
  rw [rangeEnd_toNat]
  split
  · simp_all
  · split
    · simp_all
    · split
      · simp_all
      · split
        · simp_all
        · simp_all

/-- The check that fails first, and what it means (41_transmit_engine.md R150). -/
theorem goCheck_eq_some {s : State} {c : FaultCode} (h : goCheck s = some c) :
    (c = .busyGo ∧ s.busy = true) ∨
      (c = .badPin ∧ s.busy = false ∧ s.len ≠ 0 ∧ s.cfg.numPins ≤ s.pin.toNat) ∨
      (c = .range ∧ s.busy = false ∧ s.len ≠ 0 ∧ s.pin.toNat < s.cfg.numPins ∧
        s.cfg.bufSize < s.addr.toNat + s.len.toNat) := by
  unfold goCheck at h
  rw [rangeEnd_toNat] at h
  split at h
  · simp_all
  · split at h
    · simp_all
    · split at h
      · simp_all
      · split at h
        · simp_all
        · simp_all

theorem goCheck_ne_none_code {s : State} {c : FaultCode} (h : goCheck s = some c) :
    c ≠ .none := by
  rcases goCheck_eq_some h with ⟨rfl, _⟩ | ⟨rfl, _⟩ | ⟨rfl, _⟩ <;> simp

/-- Everything one engine step can do (41_transmit_engine.md R172). -/
theorem engineAct_cases {s : State} {a : EngineAct} (h : engineAct s = .ok a) :
    (a = .hold ∧ s.busy = false) ∨
      (a = .nextPhase ∧ s.st = .shift ∧ s.ph < s.cfg.tbit - 1) ∨
      (a = .nextBit ∧ s.st = .shift ∧ ¬ s.ph < s.cfg.tbit - 1 ∧ s.nb.toNat < 7) ∨
      (a = .nextByte (s.engineLoad s.ptr) ∧ s.st = .shift ∧ ¬ s.ph < s.cfg.tbit - 1 ∧
        s.nb.toNat = 7 ∧ 0 < s.rem.toNat ∧ s.ptr.toNat < s.cfg.bufSize) ∨
      (a = .lastByte ∧ s.st = .shift ∧ ¬ s.ph < s.cfg.tbit - 1 ∧ s.nb.toNat = 7 ∧ s.rem = 0) ∨
      (a = .trailCount ∧ s.st = .trail ∧ s.tcnt < s.cfg.trail - 1) ∨
      (a = .trailEnd ∧ s.st = .trail ∧ ¬ s.tcnt < s.cfg.trail - 1) := by
  have hnb := s.nb.isLt
  unfold engineAct at h
  split at h
  · simp_all [State.busy]
  · simp_all [State.busy]
  · rename_i hst
    unfold shiftAct at h
    split at h
    · simp_all
    · split at h
      · simp_all
      · split at h
        · split at h
          · have : s.nb.toNat = 7 := by omega
            simp_all
          · simp at h
        · have hr : s.rem = 0 := by
            apply BitVec.eq_of_toNat_eq
            simpa using (by omega : s.rem.toNat = 0)
          have : s.nb.toNat = 7 := by omega
          simp_all
  · rename_i hst
    unfold trailAct at h
    split at h <;> simp_all

/-- The engine step stops the machine only by a load from beyond the buffer (log 10). -/
theorem engineAct_error {s : State} {f : Fault} (h : engineAct s = .error f) :
    s.st = .shift ∧ 0 < s.rem.toNat ∧ s.cfg.bufSize ≤ s.ptr.toNat := by
  unfold engineAct at h
  split at h
  · simp at h
  · simp at h
  · rename_i hst
    unfold shiftAct at h
    split at h
    · simp at h
    · split at h
      · simp at h
      · split at h
        · split at h
          · simp at h
          · exact ⟨hst, by assumption, by omega⟩
        · simp at h
  · simp at h

theorem engineAct_not_busy {s : State} (h : s.busy = false) : engineAct s = .ok .hold := by
  rw [busy_eq_false_iff] at h
  unfold engineAct
  split <;> simp_all

theorem engineAct_nextPhase {s : State} (hs : s.st = .shift) (h : s.ph < s.cfg.tbit - 1) :
    engineAct s = .ok .nextPhase := by
  simp [engineAct, hs, shiftAct, h]

theorem engineAct_nextBit {s : State} (hs : s.st = .shift) (h : ¬ s.ph < s.cfg.tbit - 1)
    (hn : s.nb.toNat < 7) : engineAct s = .ok .nextBit := by
  simp [engineAct, hs, shiftAct, h, hn]

theorem engineAct_nextByte {s : State} (hs : s.st = .shift) (h : ¬ s.ph < s.cfg.tbit - 1)
    (hn : s.nb.toNat = 7) (hr : 0 < s.rem.toNat) (hp : s.ptr.toNat < s.cfg.bufSize) :
    engineAct s = .ok (.nextByte (s.engineLoad s.ptr)) := by
  simp [engineAct, hs, shiftAct, h, hn, hr, hp]

theorem engineAct_lastByte {s : State} (hs : s.st = .shift) (h : ¬ s.ph < s.cfg.tbit - 1)
    (hn : s.nb.toNat = 7) (hr : s.rem.toNat = 0) : engineAct s = .ok .lastByte := by
  simp [engineAct, hs, shiftAct, h, hn, hr]

theorem engineAct_trailCount {s : State} (hs : s.st = .trail) (h : s.tcnt < s.cfg.trail - 1) :
    engineAct s = .ok .trailCount := by
  simp [engineAct, hs, trailAct, h]

theorem engineAct_trailEnd {s : State} (hs : s.st = .trail) (h : ¬ s.tcnt < s.cfg.trail - 1) :
    engineAct s = .ok .trailEnd := by
  simp [engineAct, hs, trailAct, h]

/-- A byte written in the buffer is what the engine loads. -/
theorem engineLoad_written {s : State} {a : Half} {v : Byte}
    (h : Memory.read a.toNat s.buf = some v) : s.engineLoad a = v := by
  simp [State.engineLoad, h]

/-- An unwritten byte is loaded as this cycle's draw (log 4). -/
theorem engineLoad_unwritten {s : State} {a : Half} (h : Memory.read a.toNat s.buf = none) :
    s.engineLoad a = Config.engineDraw s.cfg.inst s.draws := by
  simp [State.engineLoad, h]

theorem hostLoad_written {s : State} {a : Half} {v : Byte}
    (h : Memory.read a.toNat s.buf = some v) : s.hostLoad a = v := by
  simp [State.hostLoad, h]

theorem hostLoad_unwritten {s : State} {a : Half} (h : Memory.read a.toNat s.buf = none) :
    s.hostLoad a = Config.hostDraw s.cfg.inst s.draws := by
  simp [State.hostLoad, h]

end Sys2Proof.Machine
end

