-- ==== Sys2Proof/Laws/Exec.lean ====
section
/-! SUPPORT. What a transaction can make of the state of its cycle, said once for all of them. -/

namespace Sys2Proof.Machine

theorem bptrInside_iff (s : State) : bptrInside s = true ↔ s.bptr.toNat < s.cfg.bufSize :=
  decide_eq_true_iff

theorem bptrInside_eq_false_iff (s : State) :
    bptrInside s = false ↔ s.cfg.bufSize ≤ s.bptr.toNat := by
  rw [← Bool.not_eq_true, bptrInside_iff, Nat.not_lt]

@[simp] theorem bptrInside_drive (v : Byte) (s : State) :
    bptrInside (s.drive v) = bptrInside s := rfl

theorem hostWrite_in_halt {s : State} (h : s.st = .halt) (f : State → State) :
    hostWrite f s = .next (s.drive 0) := by
  simp [hostWrite, h]

theorem hostWrite_not_halted {s : State} (h : s.st ≠ .halt) (f : State → State) :
    hostWrite f s = .next (f (s.drive 0)) := by
  simp [hostWrite, h]

/-- The effect of each transaction that changes more than the read data port, outside `HALT`. -/
def hostEffect : Instr → Option (State → State)
  | .wrCtrl d => some (writeCtrl d)
  | .wrStatus d => some (writeStatus d)
  | .wrPinsel d => some (State.setPin (pinField d))
  | .wrAddrL d => some (RegPair.addr.setLow d)
  | .wrAddrH d => some (RegPair.addr.setHigh d)
  | .wrLenL d => some (RegPair.len.setLow d)
  | .wrLenH d => some (RegPair.len.setHigh d)
  | .wrBptrL d => some (RegPair.bptr.setLow d)
  | .wrBptrH d => some (RegPair.bptr.setHigh d)
  | .rdBdata => some readBdata
  | .wrBdata d => some (writeBdata d)
  | _ => none

/-- A transaction with an effect has the shape of a write. -/
theorem exec_eq_hostWrite {i : Instr} {f : State → State} (hf : hostEffect i = some f) (s : State) :
    exec i s = hostWrite f s := by
  cases i <;> simp only [hostEffect, Option.some.injEq, reduceCtorEq] at hf <;> subst hf <;> rfl

/-- Outside `HALT`, a transaction with an effect answers the state that effect makes. -/
theorem exec_of_hostEffect {i : Instr} {f : State → State} (hf : hostEffect i = some f) {s : State}
    (h : s.st ≠ .halt) : exec i s = .next (f (s.drive 0)) := by
  rw [exec_eq_hostWrite hf, hostWrite_not_halted h]

/-- A transaction without an effect answers read data alone. -/
theorem exec_of_no_hostEffect {i : Instr} (hf : hostEffect i = none) (s : State) :
    ∃ v, exec i s = .next (s.drive v) := by
  cases i <;> simp only [hostEffect, reduceCtorEq] at hf
  case wrFcause | wrRsvdB | wrRsvdHigh =>
    refine ⟨0, ?_⟩
    show hostWrite id s = _
    by_cases hh : s.st = .halt
    · exact hostWrite_in_halt hh _
    · exact hostWrite_not_halted hh _
  all_goals exact ⟨_, rfl⟩

/-- A transaction in `HALT`, and one without an effect in any state, changes the read data port
alone. -/
theorem exec_drives {i : Instr} {s : State} (h : s.st = .halt ∨ hostEffect i = none) :
    ∃ v, exec i s = .next (s.drive v) := by
  cases hf : hostEffect i with
  | none => exact exec_of_no_hostEffect hf s
  | some f =>
    have hs : s.st = .halt := by simpa [hf] using h
    exact ⟨0, by rw [exec_eq_hostWrite hf, hostWrite_in_halt hs]⟩

/-- Everything a transaction can do. -/
theorem exec_cases (i : Instr) (s : State) :
    (∃ v, exec i s = .next (s.drive v)) ∨
      (s.st ≠ .halt ∧ ∃ f, hostEffect i = some f ∧ exec i s = .next (f (s.drive 0))) := by
  by_cases h : s.st = .halt ∨ hostEffect i = none
  · exact .inl (exec_drives h)
  · obtain ⟨hs, hn⟩ := not_or.mp h
    obtain ⟨f, hf⟩ := Option.ne_none_iff_exists'.mp hn
    exact .inr ⟨hs, f, hf, exec_of_hostEffect hf hs⟩

/-- What a `CTRL` write makes of a state that is not halted (40_register_access.md R113). -/
theorem writeCtrl_cases (d : Byte) (s : State) :
    (goBit d = false ∧ writeCtrl d s = s.setIrqEn (irqEnBit d)) ∨
      (goBit d = true ∧ ∃ c, goCheck s = some c ∧ writeCtrl d s = s.raise c) ∨
      (goBit d = true ∧ goCheck s = none ∧ s.len = 0 ∧
        writeCtrl d s = zeroStart (s.setIrqEn (irqEnBit d))) ∨
      (goBit d = true ∧ goCheck s = none ∧ s.len ≠ 0 ∧
        writeCtrl d s = start (s.setIrqEn (irqEnBit d))) := by
  unfold writeCtrl
  by_cases hd : goBit d = true
  · simp only [hd, if_true, goStart]
    cases hg : goCheck s with
    | some c => simp
    | none =>
      by_cases hl : s.len = 0
      · exact .inr (.inr (.inl ⟨by trivial, by trivial, hl, if_pos hl⟩))
      · exact .inr (.inr (.inr ⟨by trivial, by trivial, hl, if_neg hl⟩))
  · simp [hd]

/-- No transaction touches the configuration, the host's later inputs or the count of the draws. -/
theorem hostEffect_frame {i : Instr} {f : State → State} (hf : hostEffect i = some f) (s : State) :
    (f s).cfg = s.cfg ∧ (f s).inputs = s.inputs ∧ (f s).draws = s.draws := by
  cases i <;> simp only [hostEffect, Option.some.injEq, reduceCtorEq] at hf <;> subst hf
  case wrCtrl d =>
    rcases writeCtrl_cases d s with ⟨_, h⟩ | ⟨_, c, _, h⟩ | ⟨_, _, _, h⟩ | ⟨_, _, _, h⟩ <;>
      rw [h] <;> simp
  case rdBdata => unfold readBdata; split <;> simp
  case wrBdata d => unfold writeBdata; split <;> simp
  case wrStatus d => unfold writeStatus; split <;> simp
  all_goals simp [RegPair.setLow, RegPair.setHigh]

/-- While a transmission is in progress, no transaction that does not fault touches the engine's
working state (20_memory.md R85). -/
theorem exec_working_of_busy {i : Instr} {s t : State} (ht : exec i s = .next t)
    (hb : s.busy = true) (hh : t.st ≠ .halt) :
    t.st = s.st ∧ t.sh = s.sh ∧ t.nb = s.nb ∧ t.ph = s.ph ∧ t.rem = s.rem ∧ t.ptr = s.ptr ∧
      t.lpin = s.lpin ∧ t.tcnt = s.tcnt := by
  rcases exec_cases i s with ⟨v, hv⟩ | ⟨_, f, hf, hv⟩
  · rw [ht, Host.Outcome.next.injEq] at hv
    subst hv
    simp
  · rw [ht, Host.Outcome.next.injEq] at hv
    cases i <;> simp only [hostEffect, Option.some.injEq, reduceCtorEq] at hf
    all_goals subst hf; subst hv
    case wrCtrl d =>
      have hbusy : ∀ {c}, goCheck (s.drive 0) = c → c ≠ none := by
        rintro c hc rfl
        rw [goCheck_eq_none_iff] at hc
        have := hc.1.symm.trans hb
        cases this
      rcases writeCtrl_cases d (s.drive 0) with ⟨_, h⟩ | ⟨_, c, _, h⟩ | ⟨_, hg, _⟩ | ⟨_, hg, _⟩
      · rw [h]
        simp
      · rw [h] at hh
        simp at hh
      · exact absurd rfl (hbusy hg)
      · exact absurd rfl (hbusy hg)
    case wrStatus d =>
      unfold writeStatus
      split <;> simp
    case rdBdata =>
      unfold readBdata at hh ⊢
      split
      · simp
      · rename_i h
        rw [if_neg h] at hh
        simp at hh
    case wrBdata d =>
      unfold writeBdata at hh ⊢
      split
      · simp
      · rename_i h
        rw [if_neg h] at hh
        simp at hh
    all_goals simp [RegPair.setLow, RegPair.setHigh]

theorem exec_frame {i : Instr} {s t : State} (h : exec i s = .next t) :
    t.cfg = s.cfg ∧ t.inputs = s.inputs ∧ t.draws = s.draws := by
  rcases exec_cases i s with ⟨v, hv⟩ | ⟨_, f, hf, hv⟩
  · rw [h, Host.Outcome.next.injEq] at hv
    subst hv
    simp
  · rw [h, Host.Outcome.next.injEq] at hv
    subst hv
    simpa using hostEffect_frame hf (s.drive 0)

/-- Every transaction answers a next state: none of them stops the machine. -/
theorem exec_answers (i : Instr) (s : State) : ∃ t, exec i s = .next t := by
  rcases exec_cases i s with ⟨_, h⟩ | ⟨_, _, _, h⟩ <;> exact ⟨_, h⟩

/-- A block that is neither busy nor halted is idle. -/
theorem idle_of_not_busy {s : State} (hs : s.st ≠ .halt) (h : s.busy = false) : s.st = .idle := by
  rw [busy_eq_false_iff] at h
  cases hst : s.st <;> simp_all

/-- What a transaction does to `DONE`, `IRQ_EN` and the engine state, case by case. -/
theorem exec_flags {i : Instr} {s t : State} (ht : exec i s = .next t) :
    (t.done = s.done ∧ t.irqEn = s.irqEn ∧ (t.st = s.st ∨ t.st = .halt)) ∨
      (s.st ≠ .halt ∧ ∃ d,
        (i = .wrStatus d ∧ doneClearBit d = true ∧ t.done = false ∧ t.irqEn = s.irqEn ∧
            t.st = s.st) ∨
          (i = .wrCtrl d ∧ goBit d = false ∧ t.done = s.done ∧ t.irqEn = irqEnBit d ∧
            t.st = s.st) ∨
          (i = .wrCtrl d ∧ goBit d = true ∧ s.st = .idle ∧ s.len = 0 ∧ t.done = true ∧
            t.irqEn = irqEnBit d ∧ t.st = .idle) ∨
          (i = .wrCtrl d ∧ goBit d = true ∧ s.st = .idle ∧ s.len ≠ 0 ∧
            s.pin.toNat < s.cfg.numPins ∧ s.addr.toNat + s.len.toNat ≤ s.cfg.bufSize ∧
            t.done = false ∧ t.irqEn = irqEnBit d ∧ t.st = .shift)) := by
  rcases exec_cases i s with ⟨v, hv⟩ | ⟨hs, f, hf, hv⟩
  · rw [ht, Host.Outcome.next.injEq] at hv
    subst hv
    left
    simp
  · rw [ht, Host.Outcome.next.injEq] at hv
    cases i <;> simp only [hostEffect, Option.some.injEq, reduceCtorEq] at hf
    all_goals subst hf; subst hv
    case wrCtrl d =>
      rcases writeCtrl_cases d (s.drive 0) with
        ⟨hd, h⟩ | ⟨hd, c, hc, h⟩ | ⟨hd, hg, hl, h⟩ | ⟨hd, hg, hl, h⟩
      · refine .inr ⟨hs, d, .inr (.inl ⟨rfl, hd, ?_⟩)⟩
        rw [h]
        exact ⟨rfl, rfl, rfl⟩
      · left
        rw [h]
        simp
      · rw [goCheck_eq_none_iff] at hg
        have hi := idle_of_not_busy hs hg.1
        refine .inr ⟨hs, d, .inr (.inr (.inl ⟨rfl, hd, hi, hl, ?_⟩))⟩
        rw [h]
        exact ⟨rfl, rfl, hi⟩
      · rw [goCheck_eq_none_iff] at hg
        have hi := idle_of_not_busy hs hg.1
        have hok := hg.2.resolve_left hl
        refine .inr ⟨hs, d, .inr (.inr (.inr ⟨rfl, hd, hi, hl, hok.1, hok.2, ?_⟩))⟩
        rw [h]
        exact ⟨rfl, rfl, rfl⟩
    case wrStatus d =>
      unfold writeStatus
      split
      · rename_i hd
        exact .inr ⟨hs, d, .inl ⟨rfl, hd, rfl, rfl, rfl⟩⟩
      · left
        simp
    case rdBdata =>
      left
      unfold readBdata
      split <;> simp
    case wrBdata d =>
      left
      unfold writeBdata
      split <;> simp
    all_goals
      left
      simp [RegPair.setLow, RegPair.setHigh]

/-- While a transmission is in progress, a transaction can clear `DONE` but not set it. -/
theorem exec_done_of_busy {i : Instr} {s t : State} (ht : exec i s = .next t)
    (hb : s.busy = true) (hd : s.done = false) : t.done = false := by
  rw [busy_iff] at hb
  rcases exec_flags ht with ⟨h, _⟩ | ⟨_, d, ⟨_, _, h, _⟩ | ⟨_, _, h, _⟩ | ⟨_, _, h, _⟩ | ⟨_, _, h, _⟩⟩
  · rw [h, hd]
  · exact h
  · rw [h, hd]
  · simp [h] at hb
  · simp [h] at hb

end Sys2Proof.Machine
end

