-- ==== Sys2Proof/Laws/Memory.lean ====
section
/-! SUPPORT. The laws of the buffer RAM: what a read finds after a write, that every write keeps the
canonical form, and that two buffers in that form which read alike are equal. -/

namespace Sys2Proof.Machine

theorem Memory.read_write_same (a : Nat) (v : Byte) (m : List Host.Cell) :
    Memory.read a (Memory.write a v m) = some v := by
  induction m with
  | nil => simp [Memory.write, Memory.read]
  | cons c m ih =>
    obtain ⟨b, w⟩ := c
    simp only [Memory.write]
    split
    · simp [Memory.read]
    · split
      · simp [Memory.read]
      · simp [Memory.read, *]

theorem Memory.read_write_other {a b : Nat} (h : b ≠ a) (v : Byte) (m : List Host.Cell) :
    Memory.read b (Memory.write a v m) = Memory.read b m := by
  induction m with
  | nil => simp [Memory.write, Memory.read, h]
  | cons c m ih =>
    obtain ⟨e, w⟩ := c
    simp only [Memory.write]
    split
    · simp [Memory.read, h]
    · split
      · rename_i _ hae
        subst hae
        simp [Memory.read, h]
      · simp only [Memory.read]
        split
        · rfl
        · exact ih

theorem Memory.read_write (a b : Nat) (v : Byte) (m : List Host.Cell) :
    Memory.read b (Memory.write a v m) = if b = a then some v else Memory.read b m := by
  split
  · rename_i h
    subst h
    exact Memory.read_write_same b v m
  · rename_i h
    exact Memory.read_write_other h v m

theorem Memory.wfFrom_mono {lo lo' size : Nat} (h : lo' ≤ lo) :
    ∀ m : List Host.Cell, Memory.wfFrom lo size m = true → Memory.wfFrom lo' size m = true
  | [], _ => rfl
  | (a, _) :: m, hm => by
    simp only [Memory.wfFrom, Bool.and_eq_true, decide_eq_true_eq] at hm ⊢
    exact ⟨⟨by omega, hm.1.2⟩, hm.2⟩

theorem Memory.wfFrom_write {a lo size : Nat} (v : Byte) (hlo : lo ≤ a) (ha : a < size) :
    ∀ m : List Host.Cell, Memory.wfFrom lo size m = true →
      Memory.wfFrom lo size (Memory.write a v m) = true
  | [], _ => by simp [Memory.write, Memory.wfFrom, hlo, ha]
  | (b, w) :: m, hm => by
    simp only [Memory.wfFrom, Bool.and_eq_true, decide_eq_true_eq] at hm
    simp only [Memory.write]
    split
    · rename_i hab
      simp only [Memory.wfFrom, Bool.and_eq_true, decide_eq_true_eq]
      exact ⟨⟨hlo, ha⟩, ⟨by omega, hm.1.2⟩, hm.2⟩
    · split
      · rename_i _ hab
        subst hab
        simp only [Memory.wfFrom, Bool.and_eq_true, decide_eq_true_eq]
        exact ⟨⟨hlo, ha⟩, hm.2⟩
      · simp only [Memory.wfFrom, Bool.and_eq_true, decide_eq_true_eq]
        exact ⟨hm.1, Memory.wfFrom_write (a := a) v (by omega) ha m hm.2⟩

/-- Every store into the buffer keeps its canonical form. -/
theorem Memory.wf_write {a size : Nat} (v : Byte) (ha : a < size) (m : List Host.Cell)
    (hm : Memory.wf size m = true) : Memory.wf size (Memory.write a v m) = true :=
  Memory.wfFrom_write v (Nat.zero_le a) ha m hm

/-- The buffer right after reset is in canonical form. -/
theorem Memory.wf_reset : Memory.wf State.reset.cfg.bufSize State.reset.buf = true := rfl

theorem Memory.read_below {a lo size : Nat} (h : a < lo) :
    ∀ m : List Host.Cell, Memory.wfFrom lo size m = true → Memory.read a m = none
  | [], _ => rfl
  | (b, w) :: m, hm => by
    simp only [Memory.wfFrom, Bool.and_eq_true, decide_eq_true_eq] at hm
    have hab : a ≠ b := by omega
    simp only [Memory.read, hab, if_false]
    exact Memory.read_below (by omega) m hm.2

/-- A written address lies in the buffer. -/
theorem Memory.read_some_lt {a size : Nat} {v : Byte} :
    ∀ {lo : Nat} (m : List Host.Cell), Memory.wfFrom lo size m = true →
      Memory.read a m = some v → a < size
  | _, [], _, h => by simp [Memory.read] at h
  | _, (b, w) :: m, hm, h => by
    simp only [Memory.wfFrom, Bool.and_eq_true, decide_eq_true_eq] at hm
    simp only [Memory.read] at h
    split at h
    · omega
    · exact Memory.read_some_lt m hm.2 h

/-- Two buffers in canonical form that read alike at every address are the same data. -/
theorem Memory.ext_of_wfFrom {size : Nat} :
    ∀ {lo : Nat} (m n : List Host.Cell), Memory.wfFrom lo size m = true →
      Memory.wfFrom lo size n = true → (∀ a, Memory.read a m = Memory.read a n) → m = n
  | _, [], [], _, _, _ => rfl
  | _, [], (b, w) :: n, _, _, h => by
    have := h b
    simp [Memory.read] at this
  | _, (a, v) :: m, [], _, _, h => by
    have := h a
    simp [Memory.read] at this
  | _, (a, v) :: m, (b, w) :: n, hm, hn, h => by
    simp only [Memory.wfFrom, Bool.and_eq_true, decide_eq_true_eq] at hm hn
    have hab : a = b := by
      rcases Nat.lt_trichotomy a b with hlt | heq | hgt
      · have h1 := h a
        have hne : a ≠ b := by omega
        simp only [Memory.read, hne, if_true, if_false] at h1
        rw [Memory.read_below (by omega) n hn.2] at h1
        exact absurd h1 (by simp)
      · exact heq
      · have h1 := h b
        have hne : b ≠ a := by omega
        simp only [Memory.read, hne, if_true, if_false] at h1
        rw [Memory.read_below (by omega) m hm.2] at h1
        exact absurd h1 (by simp)
    subst hab
    have hvw : v = w := by simpa [Memory.read] using h a
    subst hvw
    have hmn : m = n := by
      refine Memory.ext_of_wfFrom m n hm.2 hn.2 fun c => ?_
      by_cases hc : c = a
      · subst hc
        rw [Memory.read_below (by omega) m hm.2, Memory.read_below (by omega) n hn.2]
      · have := h c
        simpa [Memory.read, hc] using this
    rw [hmn]

end Sys2Proof.Machine
end

