-- ==== Sys2Proof/Laws/Operands.lean ====
section
/-! SUPPORT. The halves of a register pair as numbers, and what a read finds after a write of a
half. -/

namespace Sys2Proof.Machine

@[simp] theorem lowByte_toNat (v : Half) : (lowByte v).toNat = v.toNat % 256 := by
  simp [lowByte]

@[simp] theorem highByte_toNat (v : Half) : (highByte v).toNat = v.toNat / 256 := by
  have := v.isLt
  simp only [highByte, BitVec.extractLsb'_toNat, Nat.shiftRight_eq_div_pow]
  omega

@[simp] theorem joinBytes_toNat (hi lo : Byte) :
    (joinBytes hi lo).toNat = hi.toNat * 256 + lo.toNat := by
  have := lo.isLt
  rw [joinBytes, BitVec.toNat_append, ← Nat.shiftLeft_add_eq_or_of_lt (by omega),
    Nat.shiftLeft_eq]

@[simp] theorem lowByte_joinBytes (hi lo : Byte) : lowByte (joinBytes hi lo) = lo := by
  have := lo.isLt
  apply BitVec.eq_of_toNat_eq
  rw [lowByte_toNat, joinBytes_toNat]
  omega

@[simp] theorem highByte_joinBytes (hi lo : Byte) : highByte (joinBytes hi lo) = hi := by
  have := lo.isLt
  apply BitVec.eq_of_toNat_eq
  rw [highByte_toNat, joinBytes_toNat]
  omega

theorem pinField_toNat (d : Byte) : (pinField d).toNat = d.toNat % 8 := by
  simp [pinField]

theorem pinselByte_toNat (s : State) : (pinselByte s).toNat = s.pin.toNat := by
  show ((0 : BitVec 5) ++ s.pin).toNat = _
  rw [BitVec.toNat_append]
  simp

end Sys2Proof.Machine
end

