-- ==== Sys2Proof/Laws/Step.lean ====
section
/-! SUPPORT. Everything one cycle can do, said once, and the runs of several cycles. -/

namespace Sys2Proof.Machine

/-- Everything a cycle that answers a next state did: a reset, a transaction that left the block
halted, or a transaction joined with an engine step (40_register_access.md R136). -/
theorem step_cases {s s' : State} (h : step s = .next s') :
    s.cfg.Legal ∧
      ((s.input.rst = true ∧ s' = s.resetBlock.advance) ∨
        (s.input.rst = false ∧ ∃ t, exec (fetch s) s = .next t ∧
          ((t.st = .halt ∧ s' = t.advance) ∨
            (t.st ≠ .halt ∧ ∃ a, engineAct s = .ok a ∧ s' = (a.apply s t).advance)))) := by
  unfold step at h
  split at h
  case isFalse => simp at h
  case isTrue hl =>
    refine ⟨hl, ?_⟩
    split at h
    case isTrue hr =>
      simp only [resetCycle, Host.Outcome.next.injEq] at h
      exact .inl ⟨hr, h.symm⟩
    case isFalse hr =>
      refine .inr ⟨by simpa using hr, ?_⟩
      split at h
      · rename_i t ht
        refine ⟨t, ht, ?_⟩
        unfold finishCycle at h
        split at h
        · rename_i hh
          simp only [Host.Outcome.next.injEq] at h
          exact .inl ⟨hh, h.symm⟩
        · rename_i hh
          split at h
          · rename_i a ha
            simp only [Host.Outcome.next.injEq] at h
            exact .inr ⟨hh, a, ha, h.symm⟩
          · simp at h
      · simp at h
      · simp at h

/-- Everything a cycle without reset that answers a next state did. -/
theorem step_cases_no_reset {s s' : State} (hr : s.input.rst = false) (h : step s = .next s') :
    s.cfg.Legal ∧ ∃ t, exec (fetch s) s = .next t ∧
      ((t.st = .halt ∧ s' = t.advance) ∨
        (t.st ≠ .halt ∧ ∃ a, engineAct s = .ok a ∧ s' = (a.apply s t).advance)) := by
  obtain ⟨hl, ⟨hr', _⟩ | ⟨_, h'⟩⟩ := step_cases h
  · rw [hr] at hr'
    cases hr'
  · exact ⟨hl, h'⟩

/-- Of `DONE` the engine step only sets it, at the end of a trailer (41_transmit_engine.md R162). -/
theorem apply_done (a : EngineAct) (s t : State) :
    (a.apply s t).done = (decide (a = .trailEnd) || t.done) := by
  cases a <;> simp [EngineAct.apply]

theorem step_reset {s : State} (hl : s.cfg.Legal) (hr : s.input.rst = true) :
    step s = .next s.resetBlock.advance := by
  rw [step, if_pos hl, if_pos hr]
  rfl

theorem step_halted {s t : State} (hl : s.cfg.Legal) (hr : s.input.rst = false)
    (ht : exec (fetch s) s = .next t) (hh : t.st = .halt) : step s = .next t.advance := by
  simp [step, hl, hr, ht, finishCycle, hh]

theorem step_cycle {s t : State} {a : EngineAct} (hl : s.cfg.Legal) (hr : s.input.rst = false)
    (ht : exec (fetch s) s = .next t) (hh : t.st ≠ .halt) (ha : engineAct s = .ok a) :
    step s = .next (a.apply s t).advance := by
  simp [step, hl, hr, ht, finishCycle, hh, ha]

/-- No cycle changes the configuration. -/
theorem step_cfg {s s' : State} (h : step s = .next s') : s'.cfg = s.cfg := by
  obtain ⟨_, ⟨_, rfl⟩ | ⟨_, t, ht, ⟨_, rfl⟩ | ⟨_, a, _, rfl⟩⟩⟩ := step_cases h
  · simp
  · simpa using (exec_frame ht).1
  · simpa using (exec_frame ht).1

/-- Every cycle consumes its inputs. -/
theorem step_inputs {s s' : State} (h : step s = .next s') : s'.inputs = s.inputs.tail := by
  obtain ⟨_, ⟨_, rfl⟩ | ⟨_, t, ht, ⟨_, rfl⟩ | ⟨_, a, _, rfl⟩⟩⟩ := step_cases h
  · simp
  · simp [(exec_frame ht).2.1]
  · simp [(exec_frame ht).2.1]

/-- Every cycle has fresh draws. -/
theorem step_draws {s s' : State} (h : step s = .next s') : s'.draws = s.draws + 1 := by
  obtain ⟨_, ⟨_, rfl⟩ | ⟨_, t, ht, ⟨_, rfl⟩ | ⟨_, a, _, rfl⟩⟩⟩ := step_cases h
  · simp
  · simp [(exec_frame ht).2.2]
  · simp [(exec_frame ht).2.2]

/-- The runs of the host's interface are these runs. -/
theorem core_run_eq (k : Nat) (s : State) : core.run k s = runFor k s := by
  induction k generalizing s with
  | zero => rfl
  | succ k ih =>
    cases hs : step s with
    | next t =>
      have h : core.run (k + 1) s = core.run k t := by
        refine (Host.Core.run.eq_2 core s k).trans ?_
        rw [show core.step s = .next t from hs]
      exact (h.trans (ih t)).trans (by simp only [runFor, hs]; rfl)
    | fault f =>
      refine (Host.Core.run.eq_2 core s k).trans ?_
      rw [show core.step s = .fault f from hs]
      simp only [runFor, hs]
      rfl
    | refused r =>
      refine (Host.Core.run.eq_2 core s k).trans ?_
      rw [show core.step s = .refused r from hs]
      simp only [runFor, hs]
      rfl

theorem runFor_succ {s s' : State} (h : step s = .next s') (k : Nat) :
    runFor (k + 1) s = runFor k s' := by
  simp [runFor, h]

/-- A run that answers a next state began with a step that did. -/
theorem runFor_succ_cases {k : Nat} {s s' : State} (h : runFor (k + 1) s = .next s') :
    ∃ u, step s = .next u ∧ runFor k u = .next s' := by
  simp only [runFor] at h
  split at h
  · exact ⟨_, by assumption, h⟩
  · simp at h
  · simp at h

/-- A run of `m + n` cycles is a run of `m` and then one of `n`. -/
theorem runFor_add {m : Nat} {s s' : State} (h : runFor m s = .next s') (n : Nat) :
    runFor (m + n) s = runFor n s' := by
  induction m generalizing s with
  | zero =>
    simp only [runFor, Host.Outcome.next.injEq] at h
    rw [h, Nat.zero_add]
  | succ m ih =>
    obtain ⟨u, hu, hm⟩ := runFor_succ_cases h
    rw [Nat.add_right_comm, runFor_succ hu, ih hm]

/-- A property that holds in a state and that every cycle keeps holds after every run. -/
theorem runFor_induction {P : State → Prop} (hstep : ∀ s s', P s → step s = .next s' → P s')
    {k : Nat} {s s' : State} (hs : P s) (h : runFor k s = .next s') : P s' := by
  induction k generalizing s with
  | zero =>
    simp only [runFor, Host.Outcome.next.injEq] at h
    exact h ▸ hs
  | succ k ih =>
    obtain ⟨u, hu, hk⟩ := runFor_succ_cases h
    exact ih (hstep s u hs hu) hk

theorem pinTrace_succ {s s' : State} (h : step s = .next s') (p k : Nat) :
    pinTrace p (k + 1) s = s.dout p :: pinTrace p k s' := by
  simp [pinTrace, h]

/-- The waveform of `m + n` cycles is that of the first `m` followed by that of the other `n`. -/
theorem pinTrace_add {m : Nat} {s s' : State} (h : runFor m s = .next s') (p n : Nat) :
    pinTrace p (m + n) s = pinTrace p m s ++ pinTrace p n s' := by
  induction m generalizing s with
  | zero =>
    simp only [runFor, Host.Outcome.next.injEq] at h
    simp [h, pinTrace]
  | succ m ih =>
    obtain ⟨u, hu, hm⟩ := runFor_succ_cases h
    rw [Nat.add_right_comm, pinTrace_succ hu, pinTrace_succ hu, ih hm, List.cons_append]

end Sys2Proof.Machine
end

