-- ==== Sys2Proof/Laws/Outputs.lean ====
section
/-! SUPPORT. The waveform of a run cycle by cycle, the waveform of bytes slot by slot, and what the
decoder makes of a bit slot (41_transmit_engine.md R155, R170). -/

namespace Sys2Proof.Machine

/-- The level of pin `x` after `k` cycles. -/
def levelAt (x : Nat) (t : State) (k : Nat) : Bool :=
  match runFor k t with
  | .next u => u.dout x
  | .fault _ => false
  | .refused _ => false

theorem levelAt_eq {x k : Nat} {t u : State} (h : runFor k t = .next u) :
    levelAt x t k = u.dout x := by
  simp [levelAt, h]

/-- The waveform of a run that goes on is its levels, cycle by cycle. -/
theorem pinTrace_eq_map {x n : Nat} {t : State} (h : ∀ k, k < n → ∃ u, runFor k t = .next u) :
    pinTrace x n t = (List.range n).map (levelAt x t) := by
  induction n with
  | zero => rfl
  | succ n ih =>
    obtain ⟨u, hu⟩ := h n (by omega)
    rw [pinTrace_add hu, ih (fun k hk => h k (by omega)), List.range_succ, List.map_append,
      List.map_singleton, levelAt_eq hu, pinTrace]
    cases step u <;> rfl

theorem range_mul_map {β : Type} (m n : Nat) (f : Nat → β) :
    (List.range (m * n)).map f =
      (List.range n).flatMap fun i => (List.range m).map fun p => f (m * i + p) := by
  induction n with
  | zero => simp
  | succ n ih =>
    rw [Nat.mul_succ, List.range_add, List.map_append, ih, List.range_succ, List.flatMap_append]
    simp [Function.comp_def]

theorem range_mul_flatMap {β : Type} (m n : Nat) (g : Nat → List β) :
    (List.range (m * n)).flatMap g =
      (List.range n).flatMap fun i => (List.range m).flatMap fun p => g (m * i + p) := by
  induction n with
  | zero => simp
  | succ n ih =>
    rw [Nat.mul_succ, List.range_add, List.flatMap_append, ih, List.range_succ,
      List.flatMap_append]
    simp [List.flatMap_map]

theorem highCycles_pos {c : Config} (hl : c.Legal) (v : Bool) : 0 < highCycles c v := by
  obtain ⟨h1, h2, _⟩ := hl
  cases v <;> simp [highCycles] <;> omega

theorem highCycles_lt {c : Config} (hl : c.Legal) (v : Bool) : highCycles c v < c.tbit := by
  obtain ⟨_, h2, h3, _⟩ := hl
  cases v <;> simp [highCycles] <;> omega

/-- The waveform of a bit slot, phase by phase. -/
theorem slotWave_eq_map {c : Config} (hl : c.Legal) (v : Bool) :
    slotWave c v =
      (List.range c.tbit).map fun p => decide (p < c.t0h) || (decide (p < c.t1h) && v) := by
  have h01 := hl.2.1
  obtain ⟨e, he⟩ := Nat.exists_eq_add_of_le (highCycles_lt hl v).le
  rw [slotWave, he, List.range_add, List.map_append]
  congr 1 <;> symm <;> rw [List.eq_replicate_iff] <;> refine ⟨by simp, fun b hb => ?_⟩
  · simp only [List.mem_map, List.mem_range] at hb
    obtain ⟨p, hp, rfl⟩ := hb
    cases v <;> simp [highCycles] at hp ⊢ <;> omega
  · simp only [List.mem_map, List.mem_range] at hb
    obtain ⟨p, ⟨q, hq, rfl⟩, rfl⟩ := hb
    cases v
    · simp [highCycles]
    · simp [highCycles]
      omega

theorem byteWave_eq_flatMap (c : Config) (v : Byte) :
    byteWave c v = (List.range 8).flatMap fun b => slotWave c (v.getLsbD (7 - b)) := by
  simp [byteWave, byteBits, List.range, List.range.loop]

theorem flatMap_eq_range (bytes : List Byte) (g : Byte → List Bool) :
    bytes.flatMap g = (List.range bytes.length).flatMap fun j => g (bytes.getD j 0) := by
  rw [← List.flatMap_map (f := fun j => bytes.getD j 0) (g := g)]
  congr 1
  apply List.ext_getElem
  · simp
  · intro i h1 h2
    simp [h1]

theorem flatMap_congr_left {β γ : Type} {l : List β} {f g : β → List γ} (h : ∀ x ∈ l, f x = g x) :
    l.flatMap f = l.flatMap g := by
  rw [List.flatMap_def, List.flatMap_def, List.map_congr_left h]

theorem runsFrom_high (h m : Nat) (w : List Bool) :
    runsFrom h (List.replicate m true ++ w) = runsFrom (h + m) w := by
  induction m generalizing h with
  | zero => rfl
  | succ m ih =>
    rw [List.replicate_succ, List.cons_append, runsFrom, ih, Nat.add_assoc, Nat.add_comm 1 m]

theorem runsFrom_low (m : Nat) (w : List Bool) :
    runsFrom 0 (List.replicate m false ++ w) = runsFrom 0 w := by
  induction m with
  | zero => rfl
  | succ m ih => rw [List.replicate_succ, List.cons_append, runsFrom, if_pos rfl, ih]

/-- A bit slot is one run, of as many cycles as its bit is high. -/
theorem runsFrom_slot {c : Config} (hl : c.Legal) (v : Bool) (w : List Bool) :
    runsFrom 0 (slotWave c v ++ w) = highCycles c v :: runsFrom 0 w := by
  have h0 := highCycles_pos hl v
  obtain ⟨e, he⟩ := Nat.exists_eq_add_of_lt (highCycles_lt hl v)
  rw [slotWave, List.append_assoc, runsFrom_high, show c.tbit - highCycles c v = e + 1 by omega,
    List.replicate_succ, List.cons_append, runsFrom, if_neg (by omega), runsFrom_low, Nat.zero_add]

theorem bitsByte_byteBits (v : Byte) :
    bitsByte (v.getLsbD 7) (v.getLsbD 6) (v.getLsbD 5) (v.getLsbD 4) (v.getLsbD 3) (v.getLsbD 2)
      (v.getLsbD 1) (v.getLsbD 0) = v := by
  revert v
  decide

end Sys2Proof.Machine
end

