-- ==== Sys2Proof/Laws/PerInstr.lean ====
section
/-! SUPPORT. The family `EncodeRow`: the canonical word of a well-formed instruction is a word of the
instruction's own row of the opcode map (30_encoding.md R94), one lemma per constructor. -/

namespace Sys2Proof.Laws.EncodeRow

/-- The canonical word of `i` is selected by the row of the opcode map that has the name of `i`. -/
def Statement (i : Instr) : Prop :=
  i.wf = true → ∃ r ∈ opcodeMap, r.row = i.row ∧ r.selects (encode i) = true

/-- A row whose mask leaves the data bits free selects a write word whatever its data. -/
theorem selects_writeWord {r : OpRow} (hm : r.mask.extractLsb' 0 8 = 0) (a : Offset) (d : Byte) :
    r.selects (writeWord a d) = r.selects (writeWord a 0) := by
  have h : writeWord a d &&& r.mask = writeWord a 0 &&& r.mask := by
    apply BitVec.eq_of_getLsbD_eq
    intro i hi
    rw [BitVec.getLsbD_and, BitVec.getLsbD_and, writeWord, writeWord, busWord_getLsbD,
      busWord_getLsbD]
    by_cases h8 : i < 8
    · have hz : r.mask.getLsbD i = false := by
        have := congrArg (fun x => x.getLsbD i) hm
        simpa [h8, -BitVec.getLsbD_eq_getElem] using this
      rw [hz, Bool.and_false, Bool.and_false]
    · simp only [h8, if_false]
  rw [OpRow.selects, OpRow.selects, h]

/-- A write row that selects the word with data zero covers every write of that offset. -/
theorem of_write {i : Instr} {a : Offset} {d : Byte} (r : OpRow) (hr : r ∈ opcodeMap)
    (hi : r.row = i.row) (he : encode i = writeWord a d) (hm : r.mask.extractLsb' 0 8 = 0)
    (h : i.wf = true → r.selects (writeWord a 0) = true) : Statement i :=
  fun hw => ⟨r, hr, hi, by rw [he, selects_writeWord hm]; exact h hw⟩

theorem nop : Statement .nop := fun _ => by decide

theorem rdCtrl : Statement .rdCtrl := fun _ => by decide

theorem wrCtrl (d : Byte) : Statement (.wrCtrl d) :=
  of_write ⟨.wrCtrl, "WR_CTRL", 0x3000, 0x3F00⟩ (by decide) rfl rfl (by decide) fun _ => by decide

theorem rdStatus : Statement .rdStatus := fun _ => by decide

theorem wrStatus (d : Byte) : Statement (.wrStatus d) :=
  of_write ⟨.wrStatus, "WR_STATUS", 0x3100, 0x3F00⟩ (by decide) rfl rfl (by decide) fun _ => by decide

theorem rdPinsel : Statement .rdPinsel := fun _ => by decide

theorem wrPinsel (d : Byte) : Statement (.wrPinsel d) :=
  of_write ⟨.wrPinsel, "WR_PINSEL", 0x3200, 0x3F00⟩ (by decide) rfl rfl (by decide) fun _ => by decide

theorem rdAddrL : Statement .rdAddrL := fun _ => by decide

theorem wrAddrL (d : Byte) : Statement (.wrAddrL d) :=
  of_write ⟨.wrAddrL, "WR_ADDR_L", 0x3300, 0x3F00⟩ (by decide) rfl rfl (by decide) fun _ => by decide

theorem rdAddrH : Statement .rdAddrH := fun _ => by decide

theorem wrAddrH (d : Byte) : Statement (.wrAddrH d) :=
  of_write ⟨.wrAddrH, "WR_ADDR_H", 0x3400, 0x3F00⟩ (by decide) rfl rfl (by decide) fun _ => by decide

theorem rdLenL : Statement .rdLenL := fun _ => by decide

theorem wrLenL (d : Byte) : Statement (.wrLenL d) :=
  of_write ⟨.wrLenL, "WR_LEN_L", 0x3500, 0x3F00⟩ (by decide) rfl rfl (by decide) fun _ => by decide

theorem rdLenH : Statement .rdLenH := fun _ => by decide

theorem wrLenH (d : Byte) : Statement (.wrLenH d) :=
  of_write ⟨.wrLenH, "WR_LEN_H", 0x3600, 0x3F00⟩ (by decide) rfl rfl (by decide) fun _ => by decide

theorem rdBptrL : Statement .rdBptrL := fun _ => by decide

theorem wrBptrL (d : Byte) : Statement (.wrBptrL d) :=
  of_write ⟨.wrBptrL, "WR_BPTR_L", 0x3700, 0x3F00⟩ (by decide) rfl rfl (by decide) fun _ => by decide

theorem rdBptrH : Statement .rdBptrH := fun _ => by decide

theorem wrBptrH (d : Byte) : Statement (.wrBptrH d) :=
  of_write ⟨.wrBptrH, "WR_BPTR_H", 0x3800, 0x3F00⟩ (by decide) rfl rfl (by decide) fun _ => by decide

theorem rdBdata : Statement .rdBdata := fun _ => by decide

theorem wrBdata (d : Byte) : Statement (.wrBdata d) :=
  of_write ⟨.wrBdata, "WR_BDATA", 0x3900, 0x3F00⟩ (by decide) rfl rfl (by decide) fun _ => by decide

theorem rdFcause : Statement .rdFcause := fun _ => by decide

theorem wrFcause (d : Byte) : Statement (.wrFcause d) :=
  of_write ⟨.wrFcause, "WR_FCAUSE", 0x3A00, 0x3F00⟩ (by decide) rfl rfl (by decide) fun _ => by decide

theorem rdRsvdB : Statement .rdRsvdB := fun _ => by decide

theorem rdRsvdHigh (a : Offset) : Statement (.rdRsvdHigh a) := by
  unfold Statement
  revert a
  decide

theorem wrRsvdB (d : Byte) : Statement (.wrRsvdB d) :=
  of_write ⟨.wrRsvdB, "WR_RSVD", 0x3B00, 0x3F00⟩ (by decide) rfl rfl (by decide) fun _ => by decide

theorem wrRsvdHigh (a : Offset) (d : Byte) : Statement (.wrRsvdHigh a d) :=
  of_write ⟨.wrRsvdHigh, "WR_RSVD", 0x3C00, 0x3C00⟩ (by decide) rfl rfl (by decide)
    (show highReserved a = true → _ by revert a; decide)

end Sys2Proof.Laws.EncodeRow
end

