-- ==== Sys2Proof/Laws/Platform.lean ====
section
/-! SUPPORT. What a cycle of several instances can do, said once (60_exceptions.md R208). -/

namespace Sys2Proof.Machine

/-- Each instance makes its own step. -/
theorem platformStep_getElem? (blocks : List State) (i : Nat) :
    (platformStep blocks)[i]? = blocks[i]?.map step :=
  List.getElem?_map

/-- A cycle that every instance answers changes no instance's configuration. -/
theorem platformStep_cfg {blocks blocks' : List State}
    (h : platformStep blocks = blocks'.map .next) :
    blocks'.map State.cfg = blocks.map State.cfg := by
  induction blocks generalizing blocks' with
  | nil => cases blocks' <;> simp [platformStep] at h ⊢
  | cons b bs ih =>
    cases blocks' with
    | nil => simp [platformStep] at h
    | cons c cs =>
      simp only [platformStep, List.map_cons, List.cons.injEq] at h
      simp [step_cfg h.1, ih h.2]

end Sys2Proof.Machine
end

