-- ==== Sys2Proof/Laws/Timeline.lean ====
section
/-! SUPPORT. The places a transmission goes through, and that a cycle which does not cut it off
takes it from each to the next (41_transmit_engine.md R164). -/

namespace Sys2Proof.Machine

/-- What holds at every place of the transmission that state `s` started: `u` is the state there. -/
structure Going (s u : State) : Prop where
  cfg  : u.cfg = s.cfg
  pin  : u.lpin = s.pin
  done : u.done = false

/-- Byte `j`, bit `b`, phase `p` of the transmission that state `s` started. What is sent is the byte
as the buffer had it in the cycle of its load (20_memory.md R84). -/
structure AtBit (s u : State) (j b p : Nat) : Prop where
  going : Going s u
  st  : u.st = .shift
  ph  : u.ph = p
  nb  : u.nb.toNat = b
  rem : u.rem.toNat = s.len.toNat - 1 - j
  ptr : u.ptr.toNat = s.addr.toNat + j + 1
  sh  : ∀ w v, runFor (8 * s.cfg.tbit * j) s = .next w →
    Memory.read (s.addr.toNat + j) w.buf = some v → u.sh = v <<< b

/-- Cycle `q` of the trailer of the transmission that state `s` started. -/
structure AtTrail (s u : State) (q : Nat) : Prop where
  going : Going s u
  st   : u.st = .trail
  tcnt : u.tcnt = q

/-- The transmission that state `s` started is over. -/
structure AtEnd (s u : State) : Prop where
  cfg  : u.cfg = s.cfg
  st   : u.st = .idle
  done : u.done = true

/-- A cycle that does not cut the transmission off: the state `t` its transaction makes is the same
place, and the engine step is joined to it. -/
theorem undisturbed_cycle {s u : State} {a : EngineAct} (hl : s.cfg.Legal) (hg : Going s u)
    (hbusy : u.busy = true) (ha : engineAct u = .ok a)
    (hu : undisturbed u = true) :
    ∃ t, step u = .next (a.apply u t).advance ∧ Going s t ∧
      t.st = u.st ∧ t.sh = u.sh ∧ t.nb = u.nb ∧ t.ph = u.ph ∧ t.rem = u.rem ∧ t.ptr = u.ptr := by
  simp only [undisturbed, Bool.and_eq_true, Bool.not_eq_true'] at hu
  obtain ⟨hr, hu⟩ := hu
  split at hu
  case h_2 => cases hu
  case h_3 => cases hu
  rename_i t ht
  have hh : t.st ≠ .halt := bne_iff_ne.mp hu
  obtain ⟨k1, k2, k3, k4, k5, k6, k7, _⟩ := exec_working_of_busy ht hbusy hh
  exact ⟨t, step_cycle (hg.cfg ▸ hl) hr ht hh ha,
    ⟨(exec_frame ht).1.trans hg.cfg, k7.trans hg.pin, exec_done_of_busy ht hbusy hg.done⟩,
    k1, k2, k3, k4, k5, k6⟩

variable {s u : State}

theorem atBit_nextPhase {j b p : Nat} (hl : s.cfg.Legal) (h : AtBit s u j b p)
    (hp : p + 1 < s.cfg.tbit) (hu : undisturbed u = true) :
    ∃ u', step u = .next u' ∧ AtBit s u' j b (p + 1) := by
  have ha : engineAct u = .ok .nextPhase :=
    engineAct_nextPhase h.st (by rw [h.ph, h.going.cfg]; omega)
  obtain ⟨t, ht, hg, k1, k2, k3, k4, k5, k6⟩ :=
    undisturbed_cycle hl h.going ((busy_iff u).mpr (.inl h.st)) ha hu
  exact ⟨_, ht, ⟨⟨hg.cfg, hg.pin, hg.done⟩, k1.trans h.st, congrArg (· + 1) h.ph,
    (congrArg BitVec.toNat k3).trans h.nb, (congrArg BitVec.toNat k5).trans h.rem,
    (congrArg BitVec.toNat k6).trans h.ptr, fun w v hw hv => k2.trans (h.sh w v hw hv)⟩⟩

theorem atBit_nextBit {j b p : Nat} (hl : s.cfg.Legal) (h : AtBit s u j b p)
    (hp : p + 1 = s.cfg.tbit) (hb : b < 7)
    (hu : undisturbed u = true) :
    ∃ u', step u = .next u' ∧ AtBit s u' j (b + 1) 0 := by
  have ha : engineAct u = .ok .nextBit :=
    engineAct_nextBit h.st (by rw [h.ph, h.going.cfg]; omega) (by rw [h.nb]; exact hb)
  obtain ⟨t, ht, hg, k1, k2, k3, k4, k5, k6⟩ :=
    undisturbed_cycle hl h.going ((busy_iff u).mpr (.inl h.st)) ha hu
  refine ⟨_, ht, ⟨⟨hg.cfg, hg.pin, hg.done⟩, k1.trans h.st, rfl, ?_,
    (congrArg BitVec.toNat k5).trans h.rem, (congrArg BitVec.toNat k6).trans h.ptr,
    fun w v hw hv => ?_⟩⟩
  · show (u.nb + 1).toNat = b + 1
    rw [BitVec.toNat_add, h.nb]
    exact Nat.mod_eq_of_lt (by simp; omega)
  · show u.sh <<< 1 = v <<< (b + 1)
    rw [h.sh w v hw hv, BitVec.shiftLeft_add]

theorem atBit_nextByte {j p : Nat} (hl : s.cfg.Legal)
    (hfit : s.addr.toNat + s.len.toNat ≤ s.cfg.bufSize) (h : AtBit s u j 7 p)
    (hp : p + 1 = s.cfg.tbit) (hj : j + 1 < s.len.toNat)
    (hrun : runFor (8 * s.cfg.tbit * (j + 1)) s = .next u) (hu : undisturbed u = true) :
    ∃ u', step u = .next u' ∧ AtBit s u' (j + 1) 0 0 := by
  have hbs := hl.2.2.2.2.2.2.2
  have hrem := h.rem
  have ha : engineAct u = .ok (.nextByte (u.engineLoad u.ptr)) :=
    engineAct_nextByte h.st (by rw [h.ph, h.going.cfg]; omega) h.nb (by omega)
      (by rw [h.ptr, h.going.cfg]; omega)
  obtain ⟨t, ht, hg, k1, k2, k3, k4, k5, k6⟩ :=
    undisturbed_cycle hl h.going ((busy_iff u).mpr (.inl h.st)) ha hu
  refine ⟨_, ht, ⟨⟨hg.cfg, hg.pin, hg.done⟩, k1.trans h.st, rfl, rfl, ?_, ?_,
    fun w v hw hv => ?_⟩⟩
  · show (u.rem - 1).toNat = _
    have h1 : (1 : Half).toNat = 1 := rfl
    have := u.rem.isLt
    rw [BitVec.toNat_sub, h1]
    omega
  · show (u.ptr + 1).toNat = _
    have h1 : (1 : Half).toNat = 1 := rfl
    rw [BitVec.toNat_add, h1, h.ptr]
    omega
  · show u.engineLoad u.ptr = v <<< 0
    rw [BitVec.shiftLeft_zero]
    apply engineLoad_written
    rw [hrun, Host.Outcome.next.injEq] at hw
    rw [h.ptr, Nat.add_assoc, hw]
    exact hv

theorem atBit_lastByte {j p : Nat} (hl : s.cfg.Legal) (h : AtBit s u j 7 p)
    (hp : p + 1 = s.cfg.tbit) (hj : j + 1 = s.len.toNat)
    (hu : undisturbed u = true) :
    ∃ u', step u = .next u' ∧ AtTrail s u' 0 := by
  have hrem := h.rem
  have ha : engineAct u = .ok .lastByte :=
    engineAct_lastByte h.st (by rw [h.ph, h.going.cfg]; omega) h.nb (by omega)
  obtain ⟨t, ht, hg, _⟩ := undisturbed_cycle hl h.going ((busy_iff u).mpr (.inl h.st)) ha hu
  exact ⟨_, ht, ⟨⟨hg.cfg, hg.pin, hg.done⟩, rfl, rfl⟩⟩

theorem atTrail_next {q : Nat} (hl : s.cfg.Legal) (h : AtTrail s u q) (hq : q + 1 < s.cfg.trail)
    (hu : undisturbed u = true) :
    ∃ u', step u = .next u' ∧ AtTrail s u' (q + 1) := by
  have ha : engineAct u = .ok .trailCount :=
    engineAct_trailCount h.st (by rw [h.tcnt, h.going.cfg]; omega)
  obtain ⟨t, ht, hg, k1, _⟩ := undisturbed_cycle hl h.going ((busy_iff u).mpr (.inr h.st)) ha hu
  exact ⟨_, ht, ⟨⟨hg.cfg, hg.pin, hg.done⟩, k1.trans h.st, congrArg (· + 1) h.tcnt⟩⟩

theorem atTrail_end {q : Nat} (hl : s.cfg.Legal) (h : AtTrail s u q) (hq : q + 1 = s.cfg.trail)
    (hu : undisturbed u = true) :
    ∃ u', step u = .next u' ∧ AtEnd s u' := by
  have ha : engineAct u = .ok .trailEnd :=
    engineAct_trailEnd h.st (by rw [h.tcnt, h.going.cfg]; omega)
  obtain ⟨t, ht, hg, _⟩ := undisturbed_cycle hl h.going ((busy_iff u).mpr (.inr h.st)) ha hu
  exact ⟨_, ht, ⟨hg.cfg, rfl, rfl⟩⟩

/-- An accepted start puts the transmission at its first place. -/
theorem start_atBit {t : State} (hl : s.cfg.Legal) (h : StartsIn s) (ht : step s = .next t) :
    AtBit s t 0 0 0 := by
  obtain ⟨hr, ⟨d, hd, hgo⟩, hst, hlen, hpin, hfit⟩ := h
  have hbs := hl.2.2.2.2.2.2.2
  have hne : s.st ≠ .halt := by simp [hst]
  have hb : s.busy = false := (busy_eq_false_iff s).mpr ⟨by simp [hst], by simp [hst]⟩
  have hck : goCheck (s.drive 0) = none := (goCheck_eq_none_iff _).mpr ⟨hb, .inr ⟨hpin, hfit⟩⟩
  have hl0 : (s.drive 0).len ≠ 0 := by
    intro h0
    have : s.len.toNat = 0 := congrArg BitVec.toNat h0
    omega
  have hex : exec (fetch s) s = .next (start ((s.drive 0).setIrqEn (irqEnBit d))) := by
    rw [fetch, hd, exec_of_hostEffect (f := writeCtrl d) rfl hne]
    rcases writeCtrl_cases d (s.drive 0) with ⟨h, _⟩ | ⟨_, c, h, _⟩ | ⟨_, _, h, _⟩ | ⟨_, _, _, h⟩
    · rw [hgo] at h
      cases h
    · rw [hck] at h
      cases h
    · exact absurd h hl0
    · rw [h]
  rw [step_cycle hl hr hex (by simp) (engineAct_not_busy hb), Host.Outcome.next.injEq] at ht
  subst ht
  have h1 : (1 : Half).toNat = 1 := rfl
  refine ⟨⟨rfl, rfl, rfl⟩, rfl, rfl, rfl, ?_, ?_, fun w v hw hv => ?_⟩
  · show (s.len - 1).toNat = _
    have := s.len.isLt
    rw [BitVec.toNat_sub, h1]
    omega
  · show (s.addr + 1).toNat = _
    rw [BitVec.toNat_add, h1]
    omega
  · show s.engineLoad s.addr = v <<< 0
    rw [Nat.mul_zero, runFor, Host.Outcome.next.injEq] at hw
    subst hw
    rw [BitVec.shiftLeft_zero]
    exact engineLoad_written hv

/-- The level of the sent pin at a place in a bit slot. -/
theorem atBit_dout {j b p : Nat} (hpin : s.pin.toNat < s.cfg.numPins) (h : AtBit s u j b p)
    {w : State} {v : Byte} (hw : runFor (8 * s.cfg.tbit * j) s = .next w)
    (hv : Memory.read (s.addr.toNat + j) w.buf = some v) (hb : b < 8) :
    u.dout s.pin.toNat =
      (decide (p < s.cfg.t0h) || (decide (p < s.cfg.t1h) && v.getLsbD (7 - b))) := by
  have hbit : u.currentBit = v.getLsbD (7 - b) := by
    have h8 : (7 : Nat) < 8 := by omega
    have h7 : ¬ 7 < b := by omega
    rw [State.currentBit, h.sh w v hw hv, BitVec.getLsbD_shiftLeft]
    simp [h7]
  simp [State.dout, State.slotHigh, h.st, h.going.cfg, h.going.pin, hpin, h.ph, hbit]

/-- Every other pin is low, in a bit slot, in the trailer and at the end. -/
theorem dout_other {p : Nat} (hp : u.st = .shift → p ≠ u.lpin.toNat) : u.dout p = false := by
  by_cases hs : u.st = .shift
  · simp [State.dout, hp hs]
  · simp [State.dout, hs]

/-- Two places of one transmission at the same cycle are one place. -/
theorem place_unique {c j b p j' b' p' : Nat} (hp : p < c) (hp' : p' < c) (hb : b < 8)
    (hb' : b' < 8) (h : c * (8 * j + b) + p = c * (8 * j' + b') + p') :
    j = j' ∧ b = b' ∧ p = p' := by
  have hslot : 8 * j + b = 8 * j' + b' := by
    have := congrArg (· / c) h
    simpa [Nat.mul_add_div (show 0 < c by omega), Nat.div_eq_of_lt hp, Nat.div_eq_of_lt hp']
      using this
  have hphase : p = p' := by
    rw [hslot] at h
    omega
  exact ⟨by omega, by omega, hphase⟩

/-- Every bit slot of `n` bytes comes before the trailer. -/
theorem place_lt {c n j b p : Nat} (hj : j < n) (hb : b < 8) (hp : p < c) :
    c * (8 * j + b) + p < 8 * c * n := by
  have h1 : c * (8 * j + b + 1) ≤ c * (8 * n) := Nat.mul_le_mul_left _ (by omega)
  have h2 : c * (8 * j + b + 1) = c * (8 * j + b) + c := by ring
  have h3 : c * (8 * n) = 8 * c * n := by ring
  omega

/-- Where the transmission that state `s` started is after `k` cycles. -/
def At (s u : State) (k : Nat) : Prop :=
  (∃ j b p, j < s.len.toNat ∧ b < 8 ∧ p < s.cfg.tbit ∧ k = s.cfg.tbit * (8 * j + b) + p ∧
      AtBit s u j b p) ∨
    (∃ q, q < s.cfg.trail ∧ k = 8 * s.cfg.tbit * s.len.toNat + q ∧ AtTrail s u q) ∨
    (k = busyCycles s.cfg s.len.toNat ∧ AtEnd s u)

/-- A cycle that does not cut the transmission off takes it on by one. -/
theorem at_step {k : Nat} (hrun : runFor (k + 1) s = .next u) (hl : s.cfg.Legal)
    (hfit : s.addr.toNat + s.len.toNat ≤ s.cfg.bufSize) (h : At s u k)
    (hk : k < busyCycles s.cfg s.len.toNat)
    (hu : undisturbed u = true) :
    ∃ u', step u = .next u' ∧ At s u' (k + 1) := by
  have htr := hl.2.2.2.1
  rcases h with ⟨j, b, p, hj, hb, hp, rfl, h⟩ | ⟨q, hq, rfl, h⟩ | ⟨rfl, _⟩
  · have hnext : s.cfg.tbit * (8 * j + b + 1) = s.cfg.tbit * (8 * j + b) + s.cfg.tbit := by ring
    by_cases hp1 : p + 1 < s.cfg.tbit
    · obtain ⟨u', h1, h2⟩ := atBit_nextPhase hl h hp1 hu
      exact ⟨u', h1, .inl ⟨j, b, p + 1, hj, hb, hp1, rfl, h2⟩⟩
    have hp1 : p + 1 = s.cfg.tbit := by omega
    by_cases hb7 : b < 7
    · obtain ⟨u', h1, h2⟩ := atBit_nextBit hl h hp1 hb7 hu
      refine ⟨u', h1, .inl ⟨j, b + 1, 0, hj, by omega, by omega, ?_, h2⟩⟩
      rw [← Nat.add_assoc, hnext]
      omega
    obtain rfl : b = 7 := by omega
    by_cases hj1 : j + 1 < s.len.toNat
    · have hload : runFor (8 * s.cfg.tbit * (j + 1)) s = .next u := by
        have hcycle : 8 * s.cfg.tbit * (j + 1) = s.cfg.tbit * (8 * j + 7) + p + 1 := by
          rw [Nat.add_assoc, hp1, ← hnext]
          ring
        rw [hcycle]
        exact hrun
      obtain ⟨u', h1, h2⟩ := atBit_nextByte hl hfit h hp1 hj1 hload hu
      refine ⟨u', h1, .inl ⟨j + 1, 0, 0, hj1, by omega, by omega, ?_, h2⟩⟩
      rw [show 8 * (j + 1) + 0 = 8 * j + 7 + 1 by omega, hnext]
      omega
    · have hj1 : j + 1 = s.len.toNat := by omega
      obtain ⟨u', h1, h2⟩ := atBit_lastByte hl h hp1 hj1 hu
      refine ⟨u', h1, .inr (.inl ⟨0, by omega, ?_, h2⟩)⟩
      have hlast : 8 * s.cfg.tbit * (j + 1) = s.cfg.tbit * (8 * j + 7 + 1) := by ring
      rw [← hj1, hlast, hnext]
      omega
  · by_cases hq1 : q + 1 < s.cfg.trail
    · obtain ⟨u', h1, h2⟩ := atTrail_next hl h hq1 hu
      exact ⟨u', h1, .inr (.inl ⟨q + 1, hq1, rfl, h2⟩)⟩
    · have hq1 : q + 1 = s.cfg.trail := by omega
      obtain ⟨u', h1, h2⟩ := atTrail_end hl h hq1 hu
      refine ⟨u', h1, .inr (.inr ⟨?_, h2⟩)⟩
      rw [busyCycles]
      omega
  · omega

theorem undisturbedFor_add {m : Nat} {t u : State} (hr : runFor m t = .next u) (i : Nat)
    (h : undisturbedFor (m + i) t = true) : undisturbedFor i u = true := by
  induction m generalizing t with
  | zero =>
    simp only [runFor, Host.Outcome.next.injEq] at hr
    subst hr
    simpa using h
  | succ m ih =>
    obtain ⟨w, hw, hm⟩ := runFor_succ_cases hr
    rw [Nat.add_right_comm] at h
    simp only [undisturbedFor, hw, Bool.and_eq_true] at h
    exact ih hm h.2

theorem undisturbedFor_le {k m : Nat} {t : State} (hk : m ≤ k)
    (h : undisturbedFor k t = true) : undisturbedFor m t = true := by
  induction m generalizing k t with
  | zero => rfl
  | succ m ih =>
    obtain ⟨k, rfl⟩ : ∃ k', k = k' + 1 := ⟨k - 1, by omega⟩
    simp only [undisturbedFor, Bool.and_eq_true] at h ⊢
    obtain ⟨h1, h2⟩ := h
    refine ⟨h1, ?_⟩
    split at h2
    · exact ih (by omega) h2
    · cases h2
    · cases h2

/-- A transmission that is not cut off for `k` cycles is where `At` puts it. -/
theorem at_run {t : State} (hl : s.cfg.Legal) (hs : StartsIn s) (ht : step s = .next t) (k : Nat)
    (hk : k ≤ busyCycles s.cfg s.len.toNat)
    (hu : undisturbedFor k t = true) :
    ∃ u, runFor k t = .next u ∧ At s u k := by
  induction k with
  | zero =>
    have htb : 0 < s.cfg.tbit := by
      have := hl.2.2.1
      omega
    have hlen := hs.2.2.2.1
    exact ⟨t, rfl, .inl ⟨0, 0, 0, by omega, by omega, htb, by simp, start_atBit hl hs ht⟩⟩
  | succ k ih =>
    obtain ⟨u, hr, hat⟩ := ih (by omega) (undisturbedFor_le (by omega) hu)
    have h1 := undisturbedFor_add hr 1 hu
    simp only [undisturbedFor, Bool.and_eq_true] at h1
    obtain ⟨u', h2, h3⟩ := at_step ((runFor_succ ht k).trans hr) hl hs.2.2.2.2.2 hat (by omega) h1.1
    refine ⟨u', ?_, h3⟩
    rw [runFor_add hr, runFor_succ h2]
    rfl

end Sys2Proof.Machine
end

