-- ==== Sys2Proof/Tests/Slice0.lean ====
section
/-! SUPPORT. Tests and witnesses. Expected results come from spec/95_test_vectors.md (its row names
are in the comments) or are written out from the rules named. -/

namespace Sys2Proof.Tests

open Sys2Proof.Machine Sys2Proof.Claims

/-! ## Well-formedness: the one check, and the terms it refuses -/

/-- 30_encoding.md R94: the rows with match bits `11xx` hold no offset below 0xC. -/
theorem test_wf_refuses_low_offsets :
    (Instr.rdRsvdHigh 0xB).wf = false ∧ (Instr.rdRsvdHigh 0x0).wf = false ∧
      (Instr.wrRsvdHigh 0xB 0x55).wf = false ∧ (Instr.wrRsvdHigh 0x3 0x00).wf = false := by
  decide

theorem test_wf_accepts_high_offsets :
    (Instr.rdRsvdHigh 0xC).wf = true ∧ (Instr.wrRsvdHigh 0xF 0xFF).wf = true := by
  decide

/-! ## Decoding: words written out from 95_test_vectors.md section 2.1 and 30_encoding.md R94 -/

theorem test_decode_reads :
    decodeOp 0x0000 = .nop ∧ decodeOp 0x1FFF = .nop ∧ decodeOp 0x2000 = .rdCtrl ∧
      decodeOp 0x20FF = .rdCtrl ∧ decodeOp 0x2100 = .rdStatus ∧ decodeOp 0x2200 = .rdPinsel ∧
      decodeOp 0x2300 = .rdAddrL ∧ decodeOp 0x2400 = .rdAddrH ∧ decodeOp 0x2500 = .rdLenL ∧
      decodeOp 0x2600 = .rdLenH ∧ decodeOp 0x2700 = .rdBptrL ∧ decodeOp 0x2800 = .rdBptrH ∧
      decodeOp 0x2900 = .rdBdata ∧ decodeOp 0x2A00 = .rdFcause ∧ decodeOp 0x2B00 = .rdRsvdB ∧
      decodeOp 0x2C00 = .rdRsvdHigh 0xC ∧ decodeOp 0x2F00 = .rdRsvdHigh 0xF := by
  decide

theorem test_decode_writes :
    decodeOp 0x3001 = .wrCtrl 0x01 ∧ decodeOp 0x3102 = .wrStatus 0x02 ∧
      decodeOp 0x3201 = .wrPinsel 0x01 ∧ decodeOp 0x33FC = .wrAddrL 0xFC ∧
      decodeOp 0x3401 = .wrAddrH 0x01 ∧ decodeOp 0x350B = .wrLenL 0x0B ∧
      decodeOp 0x3601 = .wrLenH 0x01 ∧ decodeOp 0x3706 = .wrBptrL 0x06 ∧
      decodeOp 0x3802 = .wrBptrH 0x02 ∧ decodeOp 0x39A5 = .wrBdata 0xA5 ∧
      decodeOp 0x3A00 = .wrFcause 0x00 ∧ decodeOp 0x3BFF = .wrRsvdB 0xFF ∧
      decodeOp 0x3C00 = .wrRsvdHigh 0xC 0x00 ∧ decodeOp 0x3E55 = .wrRsvdHigh 0xE 0x55 := by
  decide

/-- 30_encoding.md R90: `V` is bit 13, `W` bit 12, `A` bits 11 to 8, `D` bits 7 to 0. -/
theorem test_word_bit_by_bit : decodeOp 0b11_1001_10100101 = .wrBdata 0b10100101 := by decide

/-- log 13: two bytes, low byte first; a set bit above bit 13 and a missing byte are refused. -/
theorem test_decode_bytes :
    decodeBytes [0xA5, 0x39, 0x00] = .ok (.wrBdata 0xA5, [0x00]) ∧
      decodeBytes [0x00, 0x40] = .error .beyondBit13 ∧
      decodeBytes [0x00, 0xB9] = .error .beyondBit13 ∧
      decodeBytes [0x39] = .error .truncated ∧ decodeBytes [] = .error .truncated := by
  decide

theorem test_decode_table_word :
    decodeTableWord 16 0x39A5 = some (.wrBdata 0xA5) ∧ decodeTableWord 14 0x2100 = some .rdStatus ∧
      decodeTableWord 16 0x4000 = none := by
  decide

/-- 30_encoding.md R99, the expansions at the end of 95_test_vectors.md section 2.1. -/
theorem test_pseudo_operations :
    (HostLine.wr16 .len 267).words = [0x350B, 0x3601] ∧
      (HostLine.wr16 .addr 252).words = [0x33FC, 0x3400] ∧
      (HostLine.xmit 1 252 267).words = [0x3201, 0x33FC, 0x3400, 0x350B, 0x3601, 0x3001] ∧
      HostLine.goi.words = [0x3003] ∧ HostLine.clrdone.words = [0x3102] ∧
      (HostLine.fill [0x10, 0x20]).words = [0x3910, 0x3920] ∧
      (HostLine.nop 2).words = [0x0000, 0x0000] := by
  decide

/-! ## One transaction, one step -/

/-- The word `w` on the bus in the cycle of `s`. -/
def on (w : Nat) (s : State) : State := s.withFetchWord 14 w

/-- What a function of the next state gives, none where the step does not answer one. -/
def after {α : Type} (w : Nat) (f : State → α) (s : State) : Option α :=
  match step (on w s) with
  | .next t => some (f t)
  | .fault _ => none
  | .refused _ => none

/-- The reset state with the engine in the given state. -/
def inEngine (e : Engine) : State := { State.reset with st := e }

/-- A halted block (60_exceptions.md R197). -/
def halted : State := { State.reset with st := .halt, fcause := .bufBounds }

/-- A1. -/
theorem test_nop : after 0x0000 (fun t => (t.rdata, t.st)) State.reset = some (0x00, .idle) := by
  decide

/-- A2. -/
theorem test_rdCtrl :
    after 0x2000 State.rdata { State.reset with irqEn := true } = some 0x02 := by decide

/-- A3, A4. -/
theorem test_wrCtrl_irqEn :
    after 0x3002 (fun t => (t.irqEn, t.st)) State.reset = some (true, .idle) ∧
      after 0x3000 State.irqEn { State.reset with irqEn := true } = some false := by decide

/-- A5. -/
theorem test_wrCtrl_while_busy :
    after 0x3002 (fun t => (t.irqEn, t.st, t.ph)) (inEngine .shift) = some (true, .shift, 1) := by
  decide

/-- A6, A8. -/
theorem test_rdStatus :
    after 0x2100 State.rdata (inEngine .shift) = some 0x01 ∧
      after 0x2100 State.rdata { halted with done := true } = some 0x06 := by decide

/-- A7. -/
theorem test_rdStatus_keeps_done :
    after 0x2100 (fun t => (t.rdata, t.done)) { State.reset with done := true } =
      some (0x02, true) := by decide

/-- A9, A10, A11. -/
theorem test_wrStatus :
    after 0x3102 State.done { State.reset with done := true } = some false ∧
      after 0x3105 State.done { State.reset with done := true } = some true ∧
      after 0x31FF (fun t => (t.done, t.busy, t.fault)) { State.reset with done := true } =
        some (false, false, false) := by decide

/-- A12, A31. -/
theorem test_wrPinsel :
    after 0x32F9 State.pin State.reset = some 1 ∧ after 0x3201 State.pin halted = some 0 := by
  decide

/-- A13. -/
theorem test_rdPinsel :
    after 0x2200 State.rdata { State.reset with pin := 7 } = some 0x07 := by decide

/-- A14, A17. -/
theorem test_wrAddrL :
    after 0x33FC State.addr State.reset = some 0x00FC ∧
      after 0x3300 State.addr { State.reset with addr := 0x00FF } = some 0x0000 := by decide

/-- A15. -/
theorem test_wrAddrH :
    after 0x3401 State.addr { State.reset with addr := 0x00FC } = some 0x01FC := by decide

/-- A16. -/
theorem test_rdAddr :
    after 0x2300 State.rdata { State.reset with addr := 0x01FC } = some 0xFC ∧
      after 0x2400 State.rdata { State.reset with addr := 0x01FC } = some 0x01 := by decide

/-- A18, A19. -/
theorem test_wrLen :
    after 0x350B State.len { State.reset with len := 0x0100 } = some 0x010B ∧
      after 0x3601 State.len { State.reset with len := 0x000B } = some 0x010B := by decide

/-- A20. -/
theorem test_rdLen_while_busy :
    after 0x2500 State.rdata { inEngine .shift with len := 0x010B } = some 0x0B ∧
      after 0x2600 State.rdata { inEngine .shift with len := 0x010B } = some 0x01 := by decide

/-- A21, A22. -/
theorem test_wrBptr :
    after 0x3706 State.bptr { State.reset with bptr := 0x0200 } = some 0x0206 ∧
      after 0x3802 State.bptr { State.reset with bptr := 0x0006 } = some 0x0206 := by decide

/-- 40_register_access.md R126, R128, on the value of A22. -/
theorem test_rdBptr :
    after 0x2700 State.rdata { State.reset with bptr := 0x0206 } = some 0x06 ∧
      after 0x2800 State.rdata { State.reset with bptr := 0x0206 } = some 0x02 := by decide

/-- A23, A28. -/
theorem test_wrBdata :
    after 0x39A5 (fun t => (t.buf, t.bptr)) State.reset = some ([(0, 0xA5)], 1) ∧
      after 0x3922 (fun t => (t.buf, t.bptr, t.fcause)) { State.reset with bptr := 0x0207 } =
        some ([], 0x0207, .bufBounds) := by decide

/-- A25, A27. -/
theorem test_rdBdata :
    after 0x2900 (fun t => (t.rdata, t.bptr))
        { State.reset with bptr := 0x00FF, buf := [(255, 0x12)] } = some (0x12, 0x0100) ∧
      after 0x2900 (fun t => (t.rdata, t.st, t.fcause, t.bptr))
        { State.reset with bptr := 0x0207 } = some (0x00, .halt, .bufBounds, 0x0207) := by decide

/-- A29: an unwritten byte reads as a draw and stays unwritten. -/
theorem test_rdBdata_unwritten :
    after 0x2900 (fun t => (t.rdata, t.bptr, t.buf)) { State.reset with bptr := 5 } =
      some (Config.hostDraw 0 0, 6, []) := rfl

/-- A30. -/
theorem test_rdBdata_halted :
    after 0x2900 (fun t => (t.rdata, t.bptr)) { halted with bptr := 3 } = some (0x00, 3) := by
  decide

/-- A32, A34. -/
theorem test_rdFcause :
    after 0x2A00 State.rdata halted = some 0x01 ∧ after 0x2A00 State.rdata State.reset = some 0x00 := by
  decide

/-- A33. -/
theorem test_wrFcause : after 0x3A00 State.fcause halted = some .bufBounds := by decide

/-- A35, A36. -/
theorem test_rsvd :
    after 0x2F00 (fun t => (t.rdata, t.st)) State.reset = some (0x00, .idle) ∧
      after 0x2B00 (fun t => (t.rdata, t.st)) halted = some (0x00, .halt) ∧
      after 0x3BFF (fun t => (t.rdata, t.st)) State.reset = some (0x00, .idle) ∧
      after 0x3E55 (fun t => (t.rdata, t.st)) State.reset = some (0x00, .idle) := by decide

/-- T1. -/
theorem test_go_zero_length :
    after 0x3001 (fun t => (t.done, t.st)) { State.reset with pin := 7, addr := 519 } =
      some (true, .idle) := by decide

/-- T2, the GO cycle. -/
theorem test_go_start :
    after 0x3001 (fun t => (t.st, t.sh, t.ptr, t.rem))
        { State.reset with len := 1, buf := [(0, 0x80)] } = some (.shift, 0x80, 1, 0) := by decide

/-- T7: the write of the load cycle of byte 1 is stored and not loaded. -/
theorem test_write_races_load :
    after 0x39FF (fun t => (t.sh, t.ptr, t.rem, t.buf))
        { inEngine .shift with
          bptr := 1, ph := 13, nb := 7, rem := 1, ptr := 1, buf := [(0, 0x00), (1, 0x00)] } =
      some (0x00, 2, 0, [(0, 0x00), (1, 0xFF)]) := by decide

/-- T10, T12: the last trailer cycle. -/
theorem test_trailer_end :
    after 0x3001 (fun t => (t.st, t.fcause, t.done)) { inEngine .trail with tcnt := 4799 } =
        some (.halt, .busyGo, false) ∧
      after 0x3102 (fun t => (t.st, t.done)) { inEngine .trail with tcnt := 4799 } =
        some (.idle, true) := by decide

/-- T11, three of its corners: the last byte, one byte too many, a sum of 17 bits. -/
theorem test_range_corners :
    after 0x3001 State.st { State.reset with addr := 518, len := 1 } = some .shift ∧
      after 0x3001 State.fcause { State.reset with addr := 252, len := 268 } = some .range ∧
      after 0x3001 State.fcause { State.reset with addr := 0xFFFF, len := 1 } = some .range := by
  decide

/-- F2, F3. -/
theorem test_check_order :
    after 0x3001 State.fcause { State.reset with len := 1, pin := 2, addr := 600 } =
        some .badPin ∧
      after 0x3001 State.fcause { inEngine .shift with len := 1, pin := 7 } = some .busyGo := by
  decide

/-- F6: the faulting write's `IRQ_EN` is discarded, the pins fall. -/
theorem test_busyGo :
    after 0x3001 (fun t => (t.dout 0, statusByte t, t.irq)) { inEngine .shift with irqEn := true } =
      some (false, 0x04, true) := by decide

/-- H1, H3: a reset cycle discards the transaction and keeps the buffer. -/
theorem test_reset_cycle :
    step { inEngine .shift with
        inputs := [⟨true, 0x39A5⟩], bptr := 1, buf := [(0, 0xFF)], draws := 5 } =
      .next { State.reset with buf := [(0, 0xFF)], draws := 6 } := by rfl

/-- 41_transmit_engine.md R155 at the defaults: the drop points of T2 and T3. -/
theorem test_drop_points :
    ({ inEngine .shift with sh := 0x80, ph := 9 }).dout 0 = true ∧
      ({ inEngine .shift with sh := 0x80, ph := 10 }).dout 0 = false ∧
      ({ inEngine .shift with sh := 0x7F, ph := 3 }).dout 0 = true ∧
      ({ inEngine .shift with sh := 0x7F, ph := 4 }).dout 0 = false ∧
      ({ inEngine .shift with sh := 0x80, ph := 0 }).dout 1 = false := by decide

/-- T5: the decoder on the wave of 0xA5, its runs written out (41_transmit_engine.md R170). -/
theorem test_decoder :
    (byteBits 0xA5).map (highCycles Config.default) = [10, 4, 10, 4, 4, 10, 4, 10] ∧
      bitsToBytes ([10, 4, 10, 4, 4, 10, 4, 10].map (runBit Config.default)) = [0xA5] := by decide

/-! ## Witnesses: states and operands that meet the hypotheses of the statements -/

/-- The shortest bit slot, one trailer cycle, four bytes of buffer. -/
def tinyCfg : Config :=
  { inst := 0, clkHz := 16000000, t0h := 1, t1h := 2, tbit := 3, trail := 1, numPins := 2, bufSize := 4 }

/-- An idle block of that configuration, two bytes written. -/
def tiny : State := { State.reset with cfg := tinyCfg, buf := [(0, 0xA5), (1, 0x0F)] }

/-- In the last phase of the last bit of a byte, one more byte to load. -/
def tinyLoad : State :=
  { tiny with st := .shift, ph := 2, nb := 7, rem := 1, ptr := 1, draws := 3 }

/-- A state no run reaches: the next byte to load does not exist (log 10). -/
def tinyBeyond : State := { tinyLoad with ptr := 4 }

/-- In the trailer's only cycle. -/
def tinyTrail : State := { tiny with st := .trail }

/-- Halted by a `BDATA` access. -/
def tinyHalt : State := { tiny with st := .halt, fcause := .bufBounds }

/-- A `BDATA` write to the byte that the engine loads in the same cycle. -/
def tinyRace : State := on 0x3977 { tinyLoad with bptr := 1 }

/-- A start command while a transmission is in progress. -/
def tinyBusyGo : State := on 0x3001 tinyLoad

/-- A `BDATA` read at the first address that does not exist. -/
def tinyOut : State := on 0x2900 { tiny with bptr := 4 }

/-- Ready to send its first byte on pin 1, the start command on the bus. -/
def tinyGo : State := on 0x3001 { tiny with len := 1, pin := 1 }

/-- The same, and the host rewrites the byte in the cycle after its load. -/
def tinySend : State := { tinyGo with inputs := [⟨false, 0x3001⟩, ⟨false, 0x395A⟩] }

/-- A start command for no byte, with as many quiet cycles after it as a trailer has. -/
def tinyZero : State := { tiny with inputs := [⟨false, 0x3001⟩, ⟨false, 0x2100⟩] }

/-- The state after a transaction, `s` where it answers none. -/
def ran (i : Instr) (s : State) : State :=
  match exec i s with
  | .next t => t
  | .fault _ => s
  | .refused _ => s

/-- The state after a cycle, `s` where it answers none. -/
def stepped (s : State) : State :=
  match step s with
  | .next t => t
  | .fault _ => s
  | .refused _ => s

/-- How many reads a `poll` took, none where it did not succeed. -/
def pollReads : PollEnd → Option Nat
  | .matched _ n => some n
  | .outOfFuel _ => none
  | .stopped => none

/-- 30_encoding.md R100: `poll STATUS, 0x01, 0x00` in the trailer's last cycle reads 0x01 and then
0x02; with fuel for one read it does not succeed (93_implementation_defined.md S8). -/
theorem test_poll :
    pollReads (poll 3 Reg.status.offset 0x01 0x00 tinyTrail) = some 2 ∧
      pollReads (poll 1 Reg.status.offset 0x01 0x00 tinyTrail) = none := by decide

theorem witness_inv :
    Inv tiny ∧ Inv tinyLoad ∧ Inv tinyTrail ∧ Inv tinyHalt ∧ Inv tinyGo :=
  ⟨by decide, by decide, by decide, by decide, by decide⟩

/-- The premise of log 10 rules the state out. -/
theorem witness_inv_excludes : ¬ Inv tinyBeyond := by decide

theorem witness_DecodeOfEncodeIsTheInstruction :
    Instr.nop.wf = true ∧ (Instr.rdRsvdHigh 0xC).wf = true ∧ (Instr.rdRsvdHigh 0xF).wf = true ∧
      (Instr.wrRsvdHigh 0xC 0x00).wf = true ∧ (Instr.wrBdata 0xFF).wf = true := by decide

theorem witness_NoWordIsIllegal :
    ((0x2B00 : OpWord).getLsbD 13 = true ∧ 11 ≤ ((0x2B00 : OpWord).extractLsb' 8 4).toNat) ∧
      ((0x3FFF : OpWord).getLsbD 13 = true ∧ 11 ≤ ((0x3FFF : OpWord).extractLsb' 8 4).toNat) := by
  decide

/-- The row words, the ignored bits set (30_encoding.md R94, R96). -/
theorem witness_selects_reads :
    (0x20FF : OpWord) &&& 0x3F00 = 0x2000 ∧ (0x21FF : OpWord) &&& 0x3F00 = 0x2100 ∧
      (0x22FF : OpWord) &&& 0x3F00 = 0x2200 ∧ (0x23FF : OpWord) &&& 0x3F00 = 0x2300 ∧
      (0x24FF : OpWord) &&& 0x3F00 = 0x2400 ∧ (0x25FF : OpWord) &&& 0x3F00 = 0x2500 ∧
      (0x26FF : OpWord) &&& 0x3F00 = 0x2600 ∧ (0x27FF : OpWord) &&& 0x3F00 = 0x2700 ∧
      (0x28FF : OpWord) &&& 0x3F00 = 0x2800 ∧ (0x29FF : OpWord) &&& 0x3F00 = 0x2900 ∧
      (0x2AFF : OpWord) &&& 0x3F00 = 0x2A00 ∧ (0x2BFF : OpWord) &&& 0x3F00 = 0x2B00 ∧
      (0x2CFF : OpWord) &&& 0x3C00 = 0x2C00 ∧ (0x2FFF : OpWord) &&& 0x3C00 = 0x2C00 := by
  decide

theorem witness_selects_writes :
    (0x30FF : OpWord) &&& 0x3F00 = 0x3000 ∧ (0x31FF : OpWord) &&& 0x3F00 = 0x3100 ∧
      (0x32FF : OpWord) &&& 0x3F00 = 0x3200 ∧ (0x33FF : OpWord) &&& 0x3F00 = 0x3300 ∧
      (0x34FF : OpWord) &&& 0x3F00 = 0x3400 ∧ (0x35FF : OpWord) &&& 0x3F00 = 0x3500 ∧
      (0x36FF : OpWord) &&& 0x3F00 = 0x3600 ∧ (0x37FF : OpWord) &&& 0x3F00 = 0x3700 ∧
      (0x38FF : OpWord) &&& 0x3F00 = 0x3800 ∧ (0x39FF : OpWord) &&& 0x3F00 = 0x3900 ∧
      (0x3AFF : OpWord) &&& 0x3F00 = 0x3A00 ∧ (0x3BFF : OpWord) &&& 0x3F00 = 0x3B00 ∧
      (0x3CFF : OpWord) &&& 0x3C00 = 0x3C00 ∧ (0x3FFF : OpWord) &&& 0x3C00 = 0x3C00 := by
  decide

/-- A transaction that faults, one that does not, and one whose engine step has no byte to load. -/
theorem witness_StepRunsTheDecodedTransaction :
    (∃ t, tinyOut.cfg.Legal ∧ tinyOut.input.rst = false ∧ decodeOp tinyOut.input.op = .rdBdata ∧
      exec .rdBdata tinyOut = .next t ∧ t.st = .halt) ∧
      (∃ t, tinyLoad.cfg.Legal ∧ tinyLoad.input.rst = false ∧
        decodeOp tinyLoad.input.op = .nop ∧ exec .nop tinyLoad = .next t ∧ t.st ≠ .halt ∧
        engineAct tinyLoad = .ok (.nextByte 0x0F)) ∧
      ∃ t, tinyBeyond.cfg.Legal ∧ tinyBeyond.input.rst = false ∧
        decodeOp tinyBeyond.input.op = .nop ∧ exec .nop tinyBeyond = .next t ∧ t.st ≠ .halt ∧
        engineAct tinyBeyond = .error .engineLoadOutsideBuffer :=
  ⟨⟨_, by decide, rfl, by decide, rfl, rfl⟩, ⟨_, by decide, rfl, by decide, rfl, by decide, rfl⟩,
    ⟨_, by decide, rfl, by decide, rfl, by decide, rfl⟩⟩

theorem witness_PlacedWordIsFetched :
    decodeTableWord 16 0x3003 = some (.wrCtrl 0x03) ∧
      decodeTableWord 16 0x3FFF = some (.wrRsvdHigh 0xF 0xFF) := by decide

/-- One configuration at the edge of each legal range, and one beyond it. -/
theorem witness_OnlyIllegalConfigurationsAreRefused :
    tinyCfg.Legal ∧ { tinyCfg with numPins := 8, bufSize := 65535 }.Legal ∧
      ¬ { tinyCfg with t0h := 0 }.Legal ∧ ¬ { tinyCfg with t1h := 1 }.Legal ∧
      ¬ { tinyCfg with tbit := 2 }.Legal ∧ ¬ { tinyCfg with trail := 0 }.Legal ∧
      ¬ { tinyCfg with numPins := 9 }.Legal ∧ ¬ { tinyCfg with bufSize := 65536 }.Legal :=
  ⟨by decide, by decide, by decide, by decide, by decide, by decide, by decide, by decide⟩

theorem witness_NopLeavesTheCycleToTheEngine :
    (0x1FFF : OpWord).getLsbD 13 = false ∧ tinyLoad.cfg.Legal ∧
      (on 0x1FFF tinyLoad).input.rst = false ∧ (on 0x1FFF tinyLoad).input.op.getLsbD 13 = false ∧
      engineAct (on 0x1FFF tinyLoad) = .ok (.nextByte 0x0F) :=
  ⟨by decide, by decide, rfl, by decide, rfl⟩

/-- `RdFcauseReturnsTheCode`: a state that meets the invariants, halted and not. -/
theorem witness_RdFcauseReturnsTheCode :
    (Inv tiny ∧ tiny.st ≠ .halt) ∧ (Inv tinyHalt ∧ tinyHalt.st = .halt) := by decide

/-- The register writes: a state that is not halted. -/
theorem witness_not_halted : tiny.st ≠ .halt ∧ tinyLoad.st ≠ .halt ∧ tinyTrail.st ≠ .halt := by
  decide

theorem witness_WrStatusClearsDone :
    tinyTrail.cfg.Legal ∧ (on 0x3102 tinyTrail).input.rst = false ∧
      fetch (on 0x3102 tinyTrail) = .wrStatus 0x02 ∧ tinyTrail.st = .trail ∧
      tinyTrail.tcnt = tinyTrail.cfg.trail - 1 := by decide

theorem witness_WrittenRegisterReadsBack :
    Inv tinyLoad ∧ tinyLoad.st ≠ .halt ∧
      ({ tinyLoad with inputs := [⟨false, 0x3312⟩, ⟨false, 0x2300⟩] }).inputs =
        [⟨false, encode (writeLow .addr 0x12)⟩, ⟨false, encode (readLow .addr)⟩] ∧
      ({ tinyLoad with inputs := [⟨false, 0x3812⟩, ⟨false, 0x2800⟩] }).inputs =
        [⟨false, encode (writeHigh .bptr 0x12)⟩, ⟨false, encode (readHigh .bptr)⟩] ∧
      ({ tinyLoad with inputs := [⟨false, 0x32F9⟩, ⟨false, 0x2200⟩] }).inputs =
        [⟨false, encode (.wrPinsel 0xF9)⟩, ⟨false, encode .rdPinsel⟩] := by decide

/-- The `CTRL` clause of the same statement: no start, a start of no byte, an accepted start. -/
theorem witness_WrittenRegisterReadsBack_ctrl :
    (Inv tinyLoad ∧ tinyLoad.st ≠ .halt ∧ (0x02 : Byte).getLsbD 0 = false ∧
        ({ tinyLoad with inputs := [⟨false, 0x3002⟩, ⟨false, 0x2000⟩] }).inputs =
          [⟨false, encode (.wrCtrl 0x02)⟩, ⟨false, encode .rdCtrl⟩]) ∧
      (Inv tiny ∧ tiny.st = .idle ∧ tiny.len.toNat = 0) ∧ (Inv tinyGo ∧ AcceptableGo tinyGo) :=
  ⟨by decide, by decide, by decide⟩

theorem witness_OnlyItsTransactionsChangeARegisterPair :
    ∃ s', step (on 0x2900 tiny) = .next s' ∧ (on 0x2900 tiny).input.rst = false ∧
      RegPair.bptr.get s' ≠ RegPair.bptr.get (on 0x2900 tiny) :=
  ⟨_, rfl, rfl, by decide⟩

/-- The first and the last address, written and unwritten, and the address of a halted block. -/
theorem witness_RdBdataReadsAndIncrements :
    (tiny.st ≠ .halt ∧ tiny.bptr.toNat < tiny.cfg.bufSize ∧
        Memory.read tiny.bptr.toNat tiny.buf = some 0xA5) ∧
      (({ tiny with bptr := 3 }).bptr.toNat < tiny.cfg.bufSize ∧ Memory.read 3 tiny.buf = none) ∧
      tiny.cfg.Legal ∧ tinyHalt.st = .halt := by decide

theorem witness_WrBdataStoresAndIncrements :
    tiny.st ≠ .halt ∧ bdataAddress { tiny with bptr := 3 } < tiny.cfg.bufSize ∧
      Memory.wf tiny.cfg.bufSize tiny.buf = true ∧ tiny.cfg.Legal ∧ 2 ≠ bdataAddress tiny := by
  decide

theorem witness_BdataBeyondTheBufferFaults :
    tinyOut.st ≠ .halt ∧ tinyOut.cfg.bufSize ≤ tinyOut.bptr.toNat := by decide

theorem witness_OnlyBdataWritesChangeTheBuffer :
    ∃ s', step (on 0x3977 tiny) = .next s' ∧ Memory.read 0 s'.buf ≠ Memory.read 0 tiny.buf :=
  ⟨_, rfl, by decide⟩

theorem witness_WrCtrlWithoutGoSetsIrqEn : tiny.st ≠ .halt ∧ (0x02 : Byte).getLsbD 0 = false := by
  decide

/-- Each check at the edge of its range: `PIN = NUM_PINS`, `ADDR + LEN = BUF_SIZE + 1`. -/
theorem witness_GoChecksInOrder :
    (0x01 : Byte).getLsbD 0 = true ∧ tinyLoad.st = .shift ∧ tinyTrail.st = .trail ∧
      (tiny.st = .idle ∧ tiny.len.toNat = 0) ∧
      (1 ≤ ({ tiny with len := 1, pin := 2 }).len.toNat ∧
        tiny.cfg.numPins ≤ ({ tiny with len := 1, pin := 2 }).pin.toNat) ∧
      (1 ≤ ({ tiny with len := 4, addr := 1 }).len.toNat ∧ tiny.pin.toNat < tiny.cfg.numPins ∧
        tiny.cfg.bufSize < (1 : Half).toNat + (4 : Half).toNat) ∧
      AcceptableGo { tiny with len := 4 } ∧ AcceptableGo { tiny with len := 1, addr := 3 } := by
  decide

/-- `ZeroLengthGoOnlySetsDone`, `AcceptedGoLoadsTheEngine`, `GoIsAcceptedIffEveryByteExists`. -/
theorem witness_start :
    (tiny.st = .idle ∧ (0xFF : Byte).getLsbD 0 = true ∧ tiny.len.toNat = 0) ∧
      (tiny.cfg.Legal ∧ AcceptableGo { tiny with len := 4 } ∧
        Memory.read 0 tiny.buf = some 0xA5) ∧
      (AcceptableGo { tiny with len := 1, addr := 3 } ∧ Memory.read 3 tiny.buf = none) ∧
      (1 ≤ ({ tiny with len := 5 }).len.toNat ∧ tiny.pin.toNat < tiny.cfg.numPins) := by decide

/-- Each phase, bit and byte boundary of `EngineStepInShift`. -/
theorem witness_EngineStepInShift :
    (∃ t, Inv tinyLoad ∧ RunsCycle tinyLoad t ∧ tinyLoad.st = .shift) ∧
      ({ tinyLoad with ph := 1 }).ph < tinyCfg.tbit - 1 ∧
      (tinyLoad.ph = tinyLoad.cfg.tbit - 1 ∧ ({ tinyLoad with nb := 6 }).nb.toNat < 7) ∧
      (tinyLoad.nb.toNat = 7 ∧ 0 < tinyLoad.rem.toNat ∧
        Memory.read tinyLoad.ptr.toNat tinyLoad.buf = some 0x0F) ∧
      Memory.read ({ tinyLoad with ptr := 3 }).ptr.toNat tinyLoad.buf = none ∧
      (Inv { tinyLoad with rem := 0 } ∧ ({ tinyLoad with rem := 0 }).rem.toNat = 0) :=
  ⟨⟨ran .nop tinyLoad, by decide, ⟨by decide, rfl, rfl, by decide⟩, rfl⟩, by decide⟩

theorem witness_EngineStepInTrail :
    (∃ t, RunsCycle tinyTrail t ∧ tinyTrail.st = .trail ∧
      tinyTrail.tcnt = tinyTrail.cfg.trail - 1) ∧
      ∃ t, RunsCycle (inEngine .trail) t ∧ (inEngine .trail).tcnt < (inEngine .trail).cfg.trail - 1 :=
  ⟨⟨ran .nop tinyTrail, ⟨by decide, rfl, rfl, by decide⟩, rfl, rfl⟩,
    ⟨ran .nop (inEngine .trail), ⟨by decide, rfl, rfl, by decide⟩, by decide⟩⟩

theorem witness_EngineHoldsInIdleAndHalt :
    tiny.st = .idle ∧ tinyHalt.st = .halt ∧ tiny.cfg.Legal ∧ tiny.input.rst = false ∧
      ∃ t, exec (fetch tiny) tiny = .next t :=
  ⟨rfl, rfl, by decide, rfl, _, rfl⟩

/-- A fault in a cycle of the engine, and a cycle at the end of the trailer. -/
theorem witness_TransactionAndEngineCombine :
    (∃ t, tinyBusyGo.cfg.Legal ∧ tinyBusyGo.input.rst = false ∧ tinyBusyGo.st ≠ .halt ∧
      exec (fetch tinyBusyGo) tinyBusyGo = .next t ∧ t.st = .halt) ∧
      (∃ t, tinyTrail.cfg.Legal ∧ tinyTrail.input.rst = false ∧
        exec (fetch tinyTrail) tinyTrail = .next t ∧ t.st ≠ .halt ∧
        engineAct tinyTrail = .ok .trailEnd ∧ tinyTrail.busy = true) ∧
      ∃ t, exec (fetch tiny) tiny = .next t ∧ t.st ≠ .halt ∧ engineAct tiny = .ok .hold ∧
        tiny.busy = false :=
  ⟨⟨_, by decide, rfl, by decide, rfl, by decide⟩,
    ⟨_, by decide, rfl, rfl, by decide, rfl, rfl⟩, ⟨_, rfl, by decide, rfl, rfl⟩⟩

theorem witness_SameCycleWriteIsNotLoaded :
    Inv tinyRace ∧ tinyRace.input.rst = false ∧ fetch tinyRace = .wrBdata 0x77 ∧
      tinyRace.st = .shift ∧ tinyRace.ph = tinyRace.cfg.tbit - 1 ∧ tinyRace.nb.toNat = 7 ∧
      0 < tinyRace.rem.toNat ∧ tinyRace.bptr = tinyRace.ptr ∧
      Memory.read tinyRace.ptr.toNat tinyRace.buf = some 0x0F := by decide

/-- Two states of one instance whose hosts and registers differ. -/
theorem witness_EngineIgnoresTheHost :
    ∃ s₁ u₁ s' u', SameEngine tinyLoad (on 0x3977 { tinyLoad with pin := 1 }) ∧
      tinyLoad.draws = (on 0x3977 { tinyLoad with pin := 1 }).draws ∧
      Memory.read tinyLoad.ptr.toNat tinyLoad.buf = some 0x0F ∧ tinyLoad.busy = true ∧
      RunsCycle tinyLoad s₁ ∧ RunsCycle (on 0x3977 { tinyLoad with pin := 1 }) u₁ ∧
      step tinyLoad = .next s' ∧ step (on 0x3977 { tinyLoad with pin := 1 }) = .next u' :=
  ⟨ran .nop tinyLoad, ran (.wrBdata 0x77) (on 0x3977 { tinyLoad with pin := 1 }), _, _, by decide,
    rfl, by decide, rfl, ⟨by decide, rfl, rfl, by decide⟩, ⟨by decide, rfl, rfl, by decide⟩, rfl,
    rfl⟩

theorem witness_EndAddressIsKept :
    ∃ s', Inv tinyLoad ∧ tinyLoad.st = .shift ∧ step tinyLoad = .next s' ∧ s'.st = .shift :=
  ⟨_, by decide, rfl, rfl, rfl⟩

theorem witness_pin_is_high :
    tiny.cfg.Legal ∧ 0 < tiny.cfg.numPins ∧ ({ tinyLoad with ph := 0 }).dout 0 = true ∧
      ({ tinyLoad with ph := 0, lpin := 1 }).dout 1 = true := by decide

/-- Each way `irq` falls. -/
theorem witness_IrqIsALevel :
    ∀ w ∈ [0x3102, 0x3000, 0x3003],
      ∃ s', step (on w { tiny with irqEn := true, done := true, len := 1 }) = .next s' ∧
        ({ tiny with irqEn := true, done := true, len := 1 }).irq = true ∧ s'.irq = false := by
  intro w hw
  refine ⟨stepped (on w { tiny with irqEn := true, done := true, len := 1 }), ?_⟩
  revert w
  simp only [List.mem_cons, List.not_mem_nil, or_false, forall_eq_or_imp, forall_eq]
  exact ⟨⟨rfl, by decide⟩, ⟨rfl, by decide⟩, ⟨rfl, by decide⟩⟩

/-- A reset, the end of a trailer, the two kinds of start, a clear. -/
theorem witness_DoneChangesOnlyAsListed :
    (∃ s', (tinyTrail.withInput ⟨true, 0⟩).input.rst = true ∧
      step (tinyTrail.withInput ⟨true, 0⟩) = .next s') ∧
    (∃ t s', tinyTrail.cfg.Legal ∧ exec (fetch tinyTrail) tinyTrail = .next t ∧
      step tinyTrail = .next s' ∧ t.st ≠ .halt ∧ tinyTrail.tcnt = tinyTrail.cfg.trail - 1) ∧
      (fetch (on 0x3001 tiny) = .wrCtrl 0x01 ∧ tiny.st = .idle ∧ tiny.len.toNat = 0) ∧
      (fetch tinyGo = .wrCtrl 0x01 ∧ AcceptableGo tinyGo) ∧
      (fetch (on 0x3102 tiny) = .wrStatus 0x02 ∧ tiny.st ≠ .trail) ∧
      (0 : Nat) < (inEngine .trail).cfg.trail - 1 :=
  ⟨⟨_, rfl, rfl⟩, ⟨_, _, by decide, rfl, rfl, by decide, rfl⟩, by decide⟩

theorem witness_BusyRisesAndFallsOnlyAsListed :
    (∃ s', step tinyGo = .next s' ∧ tinyGo.busy = false ∧ s'.busy = true) ∧
      ∃ s', step tinyTrail = .next s' ∧ tinyTrail.busy = true ∧ s'.busy = false :=
  ⟨⟨_, rfl, rfl, rfl⟩, ⟨_, rfl, rfl, rfl⟩⟩

theorem witness_FaultsExactlyInTheListedCases :
    ∃ t s', tinyBusyGo.st ≠ .halt ∧ exec (.wrCtrl 0x01) tinyBusyGo = .next t ∧ t.st = .halt ∧
      tinyBusyGo.cfg.Legal ∧ tinyBusyGo.input.rst = false ∧
      fetch tinyBusyGo = .wrCtrl 0x01 ∧ step tinyBusyGo = .next s' :=
  ⟨_, _, by decide, rfl, by decide, by decide, rfl, by decide, rfl⟩

theorem witness_FaultEntryKeepsEverythingElse :
    ∃ t, tinyOut.cfg.Legal ∧ tinyOut.st ≠ .halt ∧ tinyOut.input.rst = false ∧
      exec (fetch tinyOut) tinyOut = .next t ∧ t.st = .halt :=
  ⟨_, by decide, by decide, rfl, rfl, by decide⟩

theorem witness_HaltedBlockOnlyAnswersReads :
    tinyHalt.st = .halt ∧ tinyHalt.cfg.Legal ∧ (on 0x2A00 tinyHalt).input.rst = false ∧
      fetch (on 0x2A00 tinyHalt) = .rdFcause := by decide

/-- A reset cycle and a cycle without reset, in `HALT`. -/
theorem witness_OnlyResetLeavesHalt :
    tinyHalt.st = .halt ∧ (∃ s', step (on 0x3001 tinyHalt) = .next s') ∧
      ∃ s', (tinyHalt.withInput ⟨true, 0⟩).input.rst = true ∧
        step (tinyHalt.withInput ⟨true, 0⟩) = .next s' :=
  ⟨rfl, ⟨_, rfl⟩, ⟨_, rfl, rfl⟩⟩

theorem witness_ResetCycleGivesTheResetState :
    (tinyLoad.withInput ⟨true, 0x3001⟩).cfg.Legal ∧
      (tinyLoad.withInput ⟨true, 0x3001⟩).input.rst = true := by decide

theorem witness_TransactionFrames :
    (∃ t, exec .rdBdata tiny = .next t) ∧ ∃ t, exec (.wrCtrl 0x01) tinyGo = .next t :=
  ⟨⟨_, rfl⟩, ⟨_, rfl⟩⟩

theorem witness_EveryStepKeepsTheInvariants :
    ∃ s', Inv tinyTrail ∧ step tinyTrail = .next s' ∧ s'.st = .idle :=
  ⟨_, by decide, rfl, rfl⟩

theorem witness_QuietHostDisturbsNothing :
    Inv { tinyLoad with inputs := [⟨false, 0x3201⟩, ⟨false, 0x2100⟩, ⟨false, 0x3002⟩] } ∧
      tinyLoad.st ≠ .halt ∧
      QuietFor 3
        { tinyLoad with inputs := [⟨false, 0x3201⟩, ⟨false, 0x2100⟩, ⟨false, 0x3002⟩] } := by
  decide

theorem witness_StatusInTheCycleAfterGo :
    Inv tiny ∧ tiny.st = .idle ∧ (0x01 : Byte).getLsbD 0 = true ∧
      [(⟨false, 0x3001⟩ : Input), ⟨false, 0x2100⟩] =
        [⟨false, encode (.wrCtrl 0x01)⟩, ⟨false, encode .rdStatus⟩] ∧
      AcceptableGo { tiny with len := 1 } ∧ tiny.len.toNat = 0 := by decide

/-- The transmission of one byte that nothing cuts off: `8 * 3 + 1` cycles, in the first of which the
host rewrites the byte already loaded (70_reset_and_hazards.md R230). -/
theorem witness_transmission :
    Inv tinySend ∧ (∃ d, decodeOp tinySend.input.op = .wrCtrl d ∧ goBit d = true) ∧
      tinySend.input.rst = false ∧ AcceptableGo tinySend ∧ HeldAtLoad tinySend [0xA5] ∧
      step tinySend = .next (stepped tinySend) ∧
      fetch (stepped tinySend) = .wrBdata 0x5A ∧ bdataAddress (stepped tinySend) = 0 ∧
      busyCycles tinySend.cfg tinySend.len.toNat = 25 ∧
      undisturbedFor 25 (stepped tinySend) = true :=
  ⟨by decide, ⟨0x01, by decide, by decide⟩, rfl, by decide, by
    intro j h
    have hj : j = 0 := by
      simp only [List.length_cons, List.length_nil] at h
      omega
    subst hj
    exact ⟨tinySend, rfl, rfl⟩, rfl, by decide, rfl, rfl, by decide⟩

/-- `DecoderRecoversTheTransmission` for `LEN = 0`. -/
theorem witness_zero_length :
    ∃ t, Inv tinyZero ∧ tinyZero.st = .idle ∧ tinyZero.input.rst = false ∧
      fetch tinyZero = .wrCtrl 0x01 ∧ (0x01 : Byte).getLsbD 0 = true ∧ tinyZero.len.toNat = 0 ∧
      step tinyZero = .next t ∧ QuietFor (busyCycles tinyZero.cfg 0) t :=
  ⟨_, by decide, rfl, rfl, by decide, rfl, rfl, rfl, by decide⟩

/-- Two instances, one halted, one in a transmission. -/
theorem witness_InstancesShareNothing :
    DistinctInstances [tinyHalt, { tinyLoad with cfg := { tinyCfg with inst := 1 } }] ∧
      platformStep [tinyHalt, { tinyLoad with cfg := { tinyCfg with inst := 1 } }] =
        [stepped tinyHalt, stepped { tinyLoad with cfg := { tinyCfg with inst := 1 } }].map
          .next :=
  ⟨by decide, rfl⟩

end Sys2Proof.Tests
end

section
/-! PROOFS. The pins, `irq` and `DONE` (10_state.md R45, R55, R56): what they are in a state, what a
start or a clear makes of them, and what the engine step adds in the same cycle. -/

namespace Sys2Proof.Machine

open Sys2Proof.Claims

/-- The level of a bit slot has one drop point, that of its bit: `T1H` is the later one
(00_scope.md R9). -/
theorem slotHigh_iff {s : State} (hl : s.cfg.Legal) :
    s.slotHigh = true ↔ s.ph < if s.sh.getLsbD 7 = true then s.cfg.t1h else s.cfg.t0h := by
  obtain ⟨_, hlt, _⟩ := hl
  unfold State.slotHigh State.currentBit
  cases s.sh.getLsbD 7 with
  | true => simp only [Bool.and_true, Bool.or_eq_true, decide_eq_true_iff, if_true]; omega
  | false => simp

theorem dout_iff (s : State) (p : Nat) :
    s.dout p = true ↔
      p < s.cfg.numPins ∧ s.st = .shift ∧ p = s.lpin.toNat ∧ s.slotHigh = true := by
  simp [State.dout, and_assoc]

theorem irq_iff (s : State) :
    s.irq = true ↔ s.irqEn = true ∧ (s.done = true ∨ s.st = .halt) := by
  simp [State.irq, fault_iff]

/-- In a cycle without reset, `IRQ_EN` and the `HALT` of a fault are as the transaction left them, and
so is `DONE`, unless the engine ends a trailer and sets it (40_register_access.md R136). -/
theorem step_flags {s t s' : State} (hr : s.input.rst = false) (ht : exec (fetch s) s = .next t)
    (h : step s = .next s') :
    s'.irqEn = t.irqEn ∧ (t.st = .halt → s'.st = .halt) ∧
      (s'.done = t.done ∨
        (t.st ≠ .halt ∧ s.st = .trail ∧ s.cfg.trail - 1 ≤ s.tcnt ∧ s'.done = true)) := by
  obtain ⟨_, u, hu, hcase⟩ := step_cases_no_reset hr h
  obtain rfl : t = u := by simpa using ht.symm.trans hu
  obtain ⟨hh, rfl⟩ | ⟨hh, a, ha, rfl⟩ := hcase
  · simp [hh]
  · by_cases hend : a = .trailEnd
    · have htrail : s.st = .trail ∧ ¬ s.tcnt < s.cfg.trail - 1 := by
        simpa [hend] using engineAct_cases ha
      exact ⟨by simp, fun h => absurd h hh,
        .inr ⟨hh, htrail.1, Nat.le_of_not_lt htrail.2, by simp [apply_done, hend]⟩⟩
    · exact ⟨by simp, fun h => absurd h hh, .inl (by simp [apply_done, hend])⟩

/-- The last trailer cycle sets `DONE` unless its transaction faults (41_transmit_engine.md R162). -/
theorem step_done_of_trailEnd {s t s' : State} (hl : s.cfg.Legal) (hr : s.input.rst = false)
    (ht : exec (fetch s) s = .next t) (h : step s = .next s') (hh : t.st ≠ .halt)
    (hs : s.st = .trail) (hend : s.tcnt = s.cfg.trail - 1) : s'.done = true := by
  have hact := engineAct_trailEnd hs (by omega)
  obtain rfl : _ = s' := by simpa using (step_cycle hl hr ht hh hact).symm.trans h
  simp [apply_done]

theorem one_le_len_iff {s : State} : 1 ≤ s.len.toNat ↔ s.len ≠ 0 := by
  rw [Nat.one_le_iff_ne_zero, ne_eq, ne_eq, ← BitVec.toNat_inj]
  rfl

/-- A start command in `IDLE` with `LEN = 0` passes the checks (41_transmit_engine.md R152). -/
theorem exec_zeroGo {s : State} {d : Byte} (hd : goBit d = true) (hs : s.st = .idle)
    (hlen : s.len.toNat = 0) :
    exec (.wrCtrl d) s = .next (zeroStart ((s.drive 0).setIrqEn (irqEnBit d))) := by
  have hlen' : (s.drive 0).len = 0 := BitVec.eq_of_toNat_eq hlen
  have hg : goCheck (s.drive 0) = none :=
    (goCheck_eq_none_iff _).2 ⟨(busy_eq_false_iff _).2 (by simp [hs]), .inl hlen'⟩
  rw [exec_of_hostEffect rfl (by simp [hs]), writeCtrl, if_pos hd, hg]
  exact congrArg _ (if_pos hlen')

/-- An acceptable start command makes the start (41_transmit_engine.md R151, R154). -/
theorem exec_acceptableGo {s : State} {d : Byte} (hd : goBit d = true) (hgo : AcceptableGo s) :
    exec (.wrCtrl d) s = .next (start ((s.drive 0).setIrqEn (irqEnBit d))) := by
  obtain ⟨hs, hlen, hfits⟩ := hgo
  have hlen' : (s.drive 0).len ≠ 0 := one_le_len_iff.1 hlen
  have hg : goCheck (s.drive 0) = none :=
    (goCheck_eq_none_iff _).2 ⟨(busy_eq_false_iff _).2 (by simp [hs]), .inr hfits⟩
  rw [exec_of_hostEffect rfl (by simp [hs]), writeCtrl, if_pos hd, hg]
  exact congrArg _ (if_neg hlen')

/-- Writing one to bit 1 of `STATUS` clears `DONE` outside `HALT` (40_register_access.md R115). -/
theorem exec_statusClear {s : State} {d : Byte} (hd : doneClearBit d = true) (hs : s.st ≠ .halt) :
    exec (.wrStatus d) s = .next ((s.drive 0).setDone false) := by
  rw [exec_of_hostEffect rfl hs, writeStatus, if_pos hd]

/-- The engine step never lowers `irq`: what is pending after the transaction is pending in the next
cycle (10_state.md R56). -/
theorem step_irq_of_exec_irq {s t s' : State} (hr : s.input.rst = false)
    (ht : exec (fetch s) s = .next t) (h : step s = .next s') (hirq : t.irq = true) :
    s'.irq = true := by
  obtain ⟨hen, hpend⟩ := (irq_iff t).1 hirq
  obtain ⟨hen', hhalt', hdone'⟩ := step_flags hr ht h
  refine (irq_iff s').2 ⟨hen'.trans hen, ?_⟩
  rcases hpend with hd | hh
  · rcases hdone' with hkeep | ⟨_, _, _, hset⟩
    · exact .inl (hkeep.trans hd)
    · exact .inl hset
  · exact .inr (hhalt' hh)

/-- The transactions that lower `irq` (10_state.md R56). -/
theorem exec_lowers_irq {i : Instr} {s t : State} (ht : exec i s = .next t) (hirq : s.irq = true)
    (hlow : t.irq = false) :
    s.st ≠ .halt ∧ ∃ d : Byte,
      (i = .wrStatus d ∧ doneClearBit d = true) ∨
        (i = .wrCtrl d ∧ (irqEnBit d = false ∨ (goBit d = true ∧ AcceptableGo s))) := by
  obtain ⟨hen, hpend⟩ := (irq_iff s).1 hirq
  have hnot : ¬(t.irqEn = true ∧ (t.done = true ∨ t.st = .halt)) := by simp [← irq_iff, hlow]
  rcases exec_flags ht with ⟨hd, he, hst⟩ | ⟨hs, d, hcase⟩
  · have hpend' : t.done = true ∨ t.st = .halt := by
      rw [hd]
      exact hpend.imp_right fun h => hst.elim (·.trans h) id
    exact absurd ⟨he.trans hen, hpend'⟩ hnot
  · have hdone : s.done = true := hpend.resolve_right hs
    refine ⟨hs, d, ?_⟩
    rcases hcase with ⟨hi, hd, _⟩ | ⟨hi, _, hd, he, _⟩ | ⟨hi, _, _, _, hd, he, _⟩ |
      ⟨hi, hgo, hidle, hlen, hpin, hrange, _⟩
    · exact .inl ⟨hi, hd⟩
    · exact .inr ⟨hi, .inl (by simpa [hd, hdone, he] using hnot)⟩
    · exact .inr ⟨hi, .inl (by simpa [hd, he] using hnot)⟩
    · exact .inr ⟨hi, .inr ⟨hgo, hidle, one_le_len_iff.2 hlen, hpin, hrange⟩⟩

/-- The causes of a change of `DONE` in a cycle without reset and without a fault (10_state.md
R45): the end of a trailer, else the transaction. -/
theorem step_done_changes {s t s' : State} (hr : s.input.rst = false)
    (ht : exec (fetch s) s = .next t) (h : step s = .next s') (hne : s'.done ≠ s.done) :
    s.st ≠ .halt ∧ t.st ≠ .halt ∧
      ((s.st = .trail ∧ s.cfg.trail - 1 ≤ s.tcnt) ∨
        ∃ d : Byte, (fetch s = .wrCtrl d ∧ goBit d = true ∧
            ((s.st = .idle ∧ s.len.toNat = 0) ∨ AcceptableGo s)) ∨
          (fetch s = .wrStatus d ∧ doneClearBit d = true)) := by
  obtain ⟨_, _, hkeep | ⟨hh, hs, hend, _⟩⟩ := step_flags hr ht h
  · rw [hkeep] at hne
    rcases exec_flags ht with ⟨hd, _⟩ | ⟨hs, d, ⟨hi, hd, _, _, hst⟩ | ⟨_, _, hd, _⟩ |
      ⟨hi, hgo, hidle, hlen, _, _, hst⟩ | ⟨hi, hgo, hidle, hlen, hpin, hrange, _, _, hst⟩⟩
    · exact absurd hd hne
    · exact ⟨hs, hst ▸ hs, .inr ⟨d, .inr ⟨hi, hd⟩⟩⟩
    · exact absurd hd hne
    · exact ⟨hs, by simp [hst], .inr ⟨d, .inl ⟨hi, hgo, .inl ⟨hidle, by simp [hlen]⟩⟩⟩⟩
    · exact ⟨hs, by simp [hst],
        .inr ⟨d, .inl ⟨hi, hgo, .inr ⟨hidle, one_le_len_iff.2 hlen, hpin, hrange⟩⟩⟩⟩
  · exact ⟨by simp [hs], hh, .inl ⟨hs, hend⟩⟩

/-- Outside the last trailer cycle `DONE` is what the transaction made of it. -/
theorem step_done_of_exec {s t s' : State} (hr : s.input.rst = false)
    (ht : exec (fetch s) s = .next t) (h : step s = .next s')
    (hend : s.st = .trail → s.tcnt < s.cfg.trail - 1) : s'.done = t.done := by
  obtain ⟨_, _, hkeep | ⟨_, hs, hlast, _⟩⟩ := step_flags hr ht h
  · exact hkeep
  · exact absurd (hend hs) (Nat.not_lt_of_le hlast)

end Sys2Proof.Machine
end

section
/-! PROOFS. The obligations about the pins, `irq`, `DONE` and reset (10_state.md R45, R55, R56, R60):
O39, O40, O37 and O46. -/

namespace Sys2Proof.Machine

/-- Settles O39: if `irq` falls then the cycle was a reset, or its transaction lowered it. -/
theorem irqIsALevel : Obligations.IrqIsALevel := by
  refine ⟨irq_iff, fun s s' h hirq hirq' => or_iff_not_imp_left.2 fun hr => ?_⟩
  have hr' : s.input.rst = false := by simpa using hr
  obtain ⟨_, t, ht, _⟩ := step_cases_no_reset hr' h
  have hlow : t.irq = false := by
    rw [← Bool.not_eq_true]
    intro ht'
    simp [step_irq_of_exec_irq hr' ht h ht'] at hirq'
  exact exec_lowers_irq ht hirq hlow

/-- Settles O40: a reset clears `DONE`; else the trailer's end sets it, and in every other cycle it
is what the transaction made of it. -/
theorem doneChangesOnlyAsListed : Obligations.DoneChangesOnlyAsListed := by
  constructor
  · intro s s' hr h
    obtain rfl : _ = s' := by simpa using (step_reset (step_cases h).1 hr).symm.trans h
    simp
  · intro s t s' hl hr ht h
    refine ⟨step_done_of_trailEnd hl hr ht h, fun d hf hd hs hlen => ?_, fun d hf hd hgo => ?_,
      fun d hf hd hs hend => ?_, step_done_changes hr ht h⟩
    · rw [step_done_of_exec hr ht h (by simp [hs])]
      obtain rfl : _ = t := by simpa [hf, exec_zeroGo hd hs hlen] using ht
      rfl
    · rw [step_done_of_exec hr ht h (by simp [hgo.1])]
      obtain rfl : _ = t := by simpa [hf, exec_acceptableGo hd hgo] using ht
      rfl
    · rw [step_done_of_exec hr ht h hend]
      obtain rfl : _ = t := by simpa [hf, exec_statusClear hd hs] using ht
      rfl

/-- Settles O37: `dout` at the one drop point of a slot. -/
theorem pinIsHighBeforeTheDropPoint : Obligations.PinIsHighBeforeTheDropPoint := by
  intro s p hl hp
  rw [dout_iff, slotHigh_iff hl]
  exact and_iff_right hp

/-- Settles O46: a reset cycle is `resetBlock`, and no pin is high outside `SHIFT`. -/
theorem resetCycleGivesTheResetState : Obligations.ResetCycleGivesTheResetState := by
  refine ⟨fun s hl hr => ⟨_, step_reset hl hr, rfl, rfl, rfl, rfl, fun p => ?_⟩, fun a => rfl⟩
  exact dout_other fun h => absurd h (by simp)

end Sys2Proof.Machine
end

section
/-! PROOFS. What the fields of a word decide (30_encoding.md R94, R95): its row of the opcode map, a
well-formed transaction, and at a reserved offset one that only drives 0x00. -/

namespace Sys2Proof.Machine

/-- A row whose mask leaves the data bits free does not look at a word's data. -/
theorem selects_busWord_data {r : OpRow} (hm : r.mask &&& 0x3F00 = r.mask) (v w : Bool) (a : Offset)
    (d : Byte) : r.selects (busWord v w a d) = r.selects (busWord v w a 0) := by
  have hfields (d : Byte) : busWord v w a d &&& 0x3F00 =
      ((BitVec.ofBool v ++ BitVec.ofBool w ++ a : BitVec 6) &&& 0x3F) ++ (d &&& 0#8) := by
    rw [← BitVec.and_append]
    rfl
  have hdata : busWord v w a d &&& 0x3F00 = busWord v w a 0 &&& 0x3F00 := by
    rw [hfields, hfields, BitVec.and_zero, BitVec.and_zero]
  rw [OpRow.selects, OpRow.selects, ← hm, BitVec.and_comm r.mask, ← BitVec.and_assoc, hdata,
    BitVec.and_assoc]

theorem writeOf_row_data (a : Offset) (d : Byte) : (writeOf a d).row = (writeOf a 0).row := by
  unfold writeOf
  split <;> rfl

/-- The row of a word's transaction does not depend on the word's data. -/
theorem decodeOp_busWord_row_data (v w : Bool) (a : Offset) (d : Byte) :
    (decodeOp (busWord v w a d)).row = (decodeOp (busWord v w a 0)).row := by
  rw [decodeOp_busWord, decodeOp_busWord]
  split
  · split
    · exact writeOf_row_data a d
    · rfl
  · rfl

/-- The 64 words with data zero, one for each value of the fields that the masks cover. -/
theorem selectedRows_busWord_zero : ∀ (v w : Bool) (a : Offset),
    (opcodeMap.filter fun r => r.selects (busWord v w a 0)).map OpRow.row =
      [(decodeOp (busWord v w a 0)).row] := by
  decide

theorem decodeOp_wf (op : OpWord) : (decodeOp op).wf = true := by
  unfold decodeOp
  split
  · split
    · exact writeOf_wf _ _
    · exact readOf_wf _
  · rfl

/-- A write transaction whose effect is nothing drives no read data (10_state.md R57). -/
theorem hostWrite_id (s : State) : hostWrite id s = .next (s.drive 0) := by
  by_cases h : s.st = .halt
  · exact hostWrite_in_halt h id
  · exact hostWrite_not_halted h id

/-- A read of a reserved offset returns 0x00 (40_register_access.md R134). -/
theorem exec_readOf_reserved {a : Offset} (ha : 11 ≤ a.toNat) (s : State) :
    exec (readOf a) s = .next (s.drive 0) := by
  unfold readOf
  split
  case h_12 | h_13 => rfl
  all_goals omega

/-- A write of a reserved offset does nothing (40_register_access.md R135). -/
theorem exec_writeOf_reserved {a : Offset} (ha : 11 ≤ a.toNat) (d : Byte) (s : State) :
    exec (writeOf a d) s = .next (s.drive 0) := by
  unfold writeOf
  split
  case h_12 | h_13 => exact hostWrite_id s
  all_goals omega

theorem exec_decodeOp_reserved {op : OpWord} (hv : opValid op = true)
    (ha : 11 ≤ (opOffset op).toNat) (s : State) : exec (decodeOp op) s = .next (s.drive 0) := by
  rw [decodeOp, if_pos hv]
  split
  · exact exec_writeOf_reserved ha _ s
  · exact exec_readOf_reserved ha s

/-- An effect halts the block only by a start check that fails or by a `BPTR` beyond the buffer
(60_exceptions.md R190). -/
theorem hostEffect_not_halted {i : Instr} {f : State → State} (hf : hostEffect i = some f)
    {s : State} (hs : s.st ≠ .halt) (hgo : goCheck s = none) (hin : bptrInside s = true) :
    (f s).st ≠ .halt := by
  cases i <;> simp only [hostEffect, Option.some.injEq, reduceCtorEq] at hf <;> subst hf
  case wrCtrl d =>
    rcases writeCtrl_cases d s with ⟨_, h⟩ | ⟨_, c, hc, _⟩ | ⟨_, _, _, h⟩ | ⟨_, _, _, h⟩
    · simpa [h] using hs
    · simp [hgo] at hc
    · simpa [h] using hs
    · simp [h]
  case wrStatus d => unfold writeStatus; split <;> exact hs
  case rdBdata => rw [readBdata, if_pos hin]; exact hs
  case wrBdata d => rw [writeBdata, if_pos hin]; exact hs
  all_goals simpa [RegPair.setLow, RegPair.setHigh] using hs

/-- No transaction halts a block whose start checks pass and whose `BPTR` lies in the buffer. -/
theorem exec_not_halted {i : Instr} {s t : State} (ht : exec i s = .next t) (hs : s.st ≠ .halt)
    (hgo : goCheck s = none) (hin : bptrInside s = true) : t.st ≠ .halt := by
  rcases exec_cases i s with ⟨v, hv⟩ | ⟨_, f, hf, hv⟩
  · obtain rfl : t = s.drive v := by simpa using ht.symm.trans hv
    exact hs
  · obtain rfl : t = f (s.drive 0) := by simpa using ht.symm.trans hv
    exact hostEffect_not_halted hf hs hgo hin

end Sys2Proof.Machine
end

section
/-! PROOFS. The obligations about the opcode map and the words that are no fault (30_encoding.md R94,
R95): O2 and O6. -/

namespace Sys2Proof.Machine

/-- Settles O2: no mask covers a data bit and the data do not change the row, which leaves the words
with data zero. -/
theorem everyWordSelectsExactlyOneRow : Obligations.EveryWordSelectsExactlyOneRow := by
  intro op
  have hmask : ∀ r ∈ opcodeMap, r.mask &&& 0x3F00 = r.mask := by decide
  rw [← busWord_fields op, decodeOp_busWord_row_data, ← selectedRows_busWord_zero]
  exact congrArg _ (List.filter_congr fun r hr => selects_busWord_data (hmask r hr) ..)

/-- Settles O6: the state right after reset is one in which no word faults. -/
theorem noWordIsIllegal : Obligations.NoWordIsIllegal := by
  intro op
  refine ⟨decodeOp_wf op, exec_answers _, ?_, exec_decodeOp_reserved⟩
  obtain ⟨t, ht⟩ := exec_answers (decodeOp op) State.reset
  exact ⟨State.reset, t, by decide, ht, exec_not_halted ht (by decide) (by decide) (by decide)⟩

end Sys2Proof.Machine
end

section
/-! PROOFS. Which words select a register's transaction (30_encoding.md R93, R94). -/

namespace Sys2Proof.Machine

open Sys2Proof.Claims

theorem decodeOp_of_not_valid {op : OpWord} (hv : opValid op = false) : decodeOp op = .nop := by
  simp [decodeOp, hv]

theorem decodeOp_read {op : OpWord} (hv : opValid op = true) (hw : opWrite op = false) :
    decodeOp op = readOf (opOffset op) := by
  simp [decodeOp, hv, hw]

theorem decodeOp_write {op : OpWord} (hv : opValid op = true) (hw : opWrite op = true) :
    decodeOp op = writeOf (opOffset op) (op.setWidth 8) := by
  simp [decodeOp, hv, hw, opData, BitVec.setWidth_eq_extractLsb']

/-- A read row of one offset: its words differ from its canonical word in the ignored data alone. -/
theorem selects_of_read {fixed : OpWord} {i : Instr} (hv : opValid fixed = true)
    (hw : opWrite fixed = false) (hi : readOf (opOffset fixed) = i) : Selects fixed 0x3F00 i := by
  intro op h
  obtain ⟨hv', hw', ha⟩ := and_rowMask op fixed h
  rw [decodeOp_read (hv'.trans hv) (hw'.trans hw), ha, hi]

/-- A write row of one offset: its words carry the data of the write. -/
theorem selectsWrite_of_write {fixed : OpWord} {i : Byte → Instr} (hv : opValid fixed = true)
    (hw : opWrite fixed = true) (hi : writeOf (opOffset fixed) = i) : SelectsWrite fixed i := by
  intro op h
  obtain ⟨hv', hw', ha⟩ := and_rowMask op fixed h
  rw [decodeOp_write (hv'.trans hv) (hw'.trans hw), ha, hi]

/-- The offsets whose upper half is 3 are 0xC to 0xF. -/
theorem offset_high : ∀ a : Offset, a.extractLsb' 2 2 = 3 → 12 ≤ a.toNat := by
  decide

/-- A masked word fixes `V`, `W` and the upper half of the offset under the mask of the rows of the
offsets 0xC to 0xF. -/
theorem and_highRowMask {op fixed : OpWord} (h : op &&& 0x3C00 = fixed)
    (hhigh : (opOffset fixed).extractLsb' 2 2 = 3) :
    opValid op = opValid fixed ∧ opWrite op = opWrite fixed ∧ 12 ≤ (opOffset op).toNat := by
  have hoff : (opOffset op).extractLsb' 2 2 = (opOffset fixed).extractLsb' 2 2 := by
    subst h
    ext i hi
    obtain rfl | rfl : i = 0 ∨ i = 1 := by omega
    · simp [opOffset]
    · simp [opOffset]
  subst h
  exact ⟨by simp [opValid], by simp [opWrite], offset_high _ (hoff.trans hhigh)⟩

theorem readOf_high : ∀ {a : Offset}, 12 ≤ a.toNat → readOf a = .rdRsvdHigh a := by
  decide

theorem writeOf_high {a : Offset} (ha : 12 ≤ a.toNat) (d : Byte) :
    writeOf a d = .wrRsvdHigh a d := by
  unfold writeOf
  split
  case h_13 => rfl
  all_goals omega

end Sys2Proof.Machine
end

section
/-! PROOFS. What a register reads as and what a write of it stores (10_state.md R34 to R41). -/

namespace Sys2Proof.Machine

open Sys2Proof.Claims

theorem ctrlByte_getLsbD (s : State) (i : Nat) :
    (ctrlByte s).getLsbD i = (decide (i = 1) && s.irqEn) := by
  show ((0 : BitVec 6) ++ BitVec.ofBool s.irqEn ++ (0 : BitVec 1) :
    BitVec (6 + 1 + 1)).getLsbD i = _
  rw [BitVec.getLsbD_append, BitVec.getLsbD_append]
  match i with
  | 0 => simp
  | 1 => simp
  | i + 2 => simp

theorem statusByte_getLsbD (s : State) (i : Nat) :
    (statusByte s).getLsbD i =
      match i with
      | 0 => s.busy
      | 1 => s.done
      | 2 => s.fault
      | _ + 3 => false := by
  show ((0 : BitVec 5) ++ BitVec.ofBool s.fault ++ BitVec.ofBool s.done ++ BitVec.ofBool s.busy :
    BitVec (5 + 1 + 1 + 1)).getLsbD i = _
  rw [BitVec.getLsbD_append, BitVec.getLsbD_append, BitVec.getLsbD_append]
  match i with
  | 0 => simp
  | 1 => simp
  | 2 => simp
  | i + 3 => simp

theorem fcauseByte_toNat (s : State) : (fcauseByte s).toNat = codeNumber s.fcause := by
  unfold fcauseByte
  cases s.fcause <;> rfl

/-- The codes of the four faults are 1 to 4 (60_exceptions.md R190). -/
theorem codeNumber_of_ne_none {c : FaultCode} (h : c ≠ .none) :
    1 ≤ codeNumber c ∧ codeNumber c ≤ 4 := by
  cases c with
  | none => exact absurd rfl h
  | bufBounds | busyGo | range | badPin => decide

theorem exec_wrPinsel {s : State} (hs : s.st ≠ .halt) (d : Byte) :
    exec (.wrPinsel d) s = .next ((s.drive 0).setPin (pinField d)) :=
  exec_of_hostEffect rfl hs

/-- A `STATUS` write keeps `DONE` where `D[1]` is 0 and clears it where `D[1]` is 1
(40_register_access.md R115). -/
theorem exec_wrStatus {s : State} (hs : s.st ≠ .halt) (d : Byte) :
    exec (.wrStatus d) s = .next ((s.drive 0).setDone (s.done && !doneClearBit d)) := by
  cases hd : doneClearBit d with
  | true => rw [exec_statusClear hd hs, Bool.not_true, Bool.and_false]
  | false =>
    rw [exec_of_hostEffect rfl hs, writeStatus, hd, Bool.not_false, Bool.and_true]
    rfl

theorem exec_writeLow (p : RegPair) {s : State} (hs : s.st ≠ .halt) (d : Byte) :
    exec (writeLow p d) s = .next (p.set (joinBytes (highByte (p.get s)) d) (s.drive 0)) := by
  have hf : hostEffect (writeLow p d) = some (p.setLow d) := by cases p <;> rfl
  rw [exec_of_hostEffect hf hs, RegPair.setLow, RegPair.get_drive]

theorem exec_writeHigh (p : RegPair) {s : State} (hs : s.st ≠ .halt) (d : Byte) :
    exec (writeHigh p d) s = .next (p.set (joinBytes d (lowByte (p.get s))) (s.drive 0)) := by
  have hf : hostEffect (writeHigh p d) = some (p.setHigh d) := by cases p <;> rfl
  rw [exec_of_hostEffect hf hs, RegPair.setHigh, RegPair.get_drive]

end Sys2Proof.Machine
end

section
/-! PROOFS. How the transaction and the engine step share one cycle (40_register_access.md R136). -/

namespace Sys2Proof.Machine

open Sys2Proof.Claims

/-- A transaction that does not fault leaves a busy engine in its place (20_memory.md R85). -/
theorem exec_sameEngine_of_busy {i : Instr} {s t : State} (ht : exec i s = .next t)
    (hb : s.busy = true) (hh : t.st ≠ .halt) : SameEngine t s :=
  ⟨(exec_frame ht).1, exec_working_of_busy ht hb hh⟩

/-- What the engine step makes of the working state depends on the working state alone, not on the
registers of the state it is written onto. -/
theorem apply_sameEngine (a : EngineAct) (s : State) {t u : State} (h : SameEngine t u) :
    SameEngine (a.apply s t) (a.apply s u) := by
  obtain ⟨hcfg, hst, hsh, hnb, hph, hrem, hptr, hlpin, htcnt⟩ := h
  cases a <;> simp [SameEngine, EngineAct.apply, *]

/-- Outside `SHIFT` and `TRAIL` the engine step holds (41_transmit_engine.md R163). -/
theorem eq_hold_of_not_busy {s : State} {a : EngineAct} (ha : engineAct s = .ok a)
    (hb : s.busy = false) : a = .hold := by
  simpa [engineAct_not_busy hb] using ha.symm

theorem apply_drive (a : EngineAct) (v : Byte) (s t : State) :
    a.apply s (t.drive v) = (a.apply s t).drive v := by
  cases a <;> rfl

/-- A cycle whose transaction only drives read data is the engine step, halted or not. -/
theorem step_of_exec_drive {s : State} {v : Byte} {a : EngineAct} (hl : s.cfg.Legal)
    (hr : s.input.rst = false) (ht : exec (fetch s) s = .next (s.drive v))
    (ha : engineAct s = .ok a) : step s = .next ((a.apply s s).drive v).advance := by
  by_cases hs : s.st = .halt
  · obtain rfl := eq_hold_of_not_busy ha ((busy_eq_false_iff s).2 (by simp [hs]))
    exact step_halted hl hr ht hs
  · rw [step_cycle hl hr ht hs ha, apply_drive]

end Sys2Proof.Machine
end

section
/-! PROOFS. The obligations about the register accesses (40_register_access.md): O33, O10, O11, O12,
O13, O15, O16, O17 and O18. -/

namespace Sys2Proof.Machine

/-- Settles O33: the engine step writes the working state and sets `DONE`; of a busy engine the
transaction leaves the working state alone, and in an idle one the engine step holds. -/
theorem transactionAndEngineCombine : Obligations.TransactionAndEngineCombine := by
  intro s t hl hr _ ht
  obtain ⟨_, hinputs, hdraws⟩ := exec_frame ht
  refine ⟨fun hh => ?_, fun hh a ha => ⟨_, step_cycle hl hr ht hh ha, by simp, by simp, by simp,
    by simp, by simp, by simp, by simp, apply_done a s t, fun hb => ?_, fun hb => ?_⟩⟩
  · rw [step_halted hl hr ht hh, State.advance, hinputs, hdraws]
  · obtain ⟨_, hst, hsh, hnb, hph, hrem, hptr, hlpin, htcnt⟩ :=
      apply_sameEngine a s (exec_sameEngine_of_busy ht hb hh)
    exact ⟨hst, hsh, hnb, hph, hrem, hptr, hlpin.trans (EngineAct.apply_lpin a s s), htcnt⟩
  · obtain rfl := eq_hold_of_not_busy ha hb
    exact ⟨rfl, rfl, rfl, rfl, rfl, rfl, rfl, rfl⟩

/-- Settles O10: a `NOP` only drives read data, so its cycle is the engine step. -/
theorem nopLeavesTheCycleToTheEngine : Obligations.NopLeavesTheCycleToTheEngine := by
  refine ⟨fun _ => decodeOp_of_not_valid, rfl, fun _ => rfl, fun s a hl hr hv ha => ?_⟩
  have hexec : exec (fetch s) s = .next (s.drive 0) := by
    rw [fetch, decodeOp_of_not_valid hv]
    rfl
  rw [step_of_exec_drive hl hr hexec ha]
  simp [State.advance, State.drive]

/-- Settles O11: bit by bit, the byte that `CTRL` reads as. -/
theorem rdCtrlReturnsIrqEn : Obligations.RdCtrlReturnsIrqEn :=
  ⟨selects_of_read rfl rfl rfl, fun s => ⟨ctrlByte s, rfl, ctrlByte_getLsbD s⟩⟩

/-- Settles O12: `BUSY` and `FAULT` exclude each other because they name different engine states. -/
theorem rdStatusReturnsTheFlags : Obligations.RdStatusReturnsTheFlags := by
  refine ⟨selects_of_read rfl rfl rfl, fun s => ⟨statusByte s, rfl, ?_⟩⟩
  simp only [statusByte_getLsbD, busy_iff, fault_iff, true_and]
  refine ⟨fun i hi => ?_, ?_⟩
  · obtain ⟨k, rfl⟩ := Nat.exists_eq_add_of_le' hi
    rfl
  · rintro ⟨hbusy, hhalt⟩
    simp [hhalt] at hbusy

/-- Settles O13: `PINSEL` reads and stores three bits, whichever pins exist. -/
theorem pinselStoresItsThreeBits : Obligations.PinselStoresItsThreeBits :=
  ⟨selects_of_read rfl rfl rfl, selectsWrite_of_write rfl rfl rfl,
    fun s => ⟨pinselByte s, rfl, pinselByte_toNat s⟩,
    fun _ d hs => ⟨pinField d, exec_wrPinsel hs d, pinField_toNat d⟩⟩

/-- Settles O15: under the invariants the code is `NONE` exactly outside `HALT`. -/
theorem rdFcauseReturnsTheCode : Obligations.RdFcauseReturnsTheCode := by
  refine ⟨selects_of_read rfl rfl rfl, fun s => ⟨fcauseByte s, rfl, fcauseByte_toNat s, ?_, ?_⟩⟩
  · rintro ⟨_, _, _, _, hcode⟩ hs
    rw [fcauseByte, hcode.2 hs]
    rfl
  · rintro ⟨_, _, _, _, hcode⟩ hs
    rw [fcauseByte_toNat]
    exact codeNumber_of_ne_none fun hnone => hcode.1 hnone hs

/-- Settles O16: a half is written by joining the data with the half that is kept. -/
theorem registerPairsWriteByHalves : Obligations.RegisterPairsWriteByHalves := by
  refine ⟨selectsWrite_of_write rfl rfl rfl, selectsWrite_of_write rfl rfl rfl,
    selectsWrite_of_write rfl rfl rfl, selectsWrite_of_write rfl rfl rfl,
    selectsWrite_of_write rfl rfl rfl, selectsWrite_of_write rfl rfl rfl,
    fun p s d hs => ⟨⟨_, exec_writeLow p hs d, ?_⟩, _, exec_writeHigh p hs d, ?_⟩⟩
  · rw [joinBytes_toNat, highByte_toNat]
  · rw [joinBytes_toNat, lowByte_toNat]

/-- Settles O17: the write does not fault, so in the last trailer cycle the engine step sets `DONE`
after it. -/
theorem wrStatusClearsDone : Obligations.WrStatusClearsDone := by
  refine ⟨selectsWrite_of_write rfl rfl rfl, fun s d hs => exec_wrStatus hs d,
    fun s d hl hr hf hs hend => ?_⟩
  have hhalt : s.st ≠ .halt := by simp [hs]
  have ht : exec (fetch s) s = .next ((s.drive 0).setDone (s.done && !doneClearBit d)) := by
    rw [hf, exec_wrStatus hhalt]
  have hstep := step_cycle hl hr ht hhalt (engineAct_trailEnd hs (by omega))
  exact ⟨_, hstep, step_done_of_trailEnd hl hr ht hstep hhalt hs hend⟩

/-- Settles O18: a write of `FCAUSE` or of a reserved offset has no effect, and a reserved read
answers 0x00. -/
theorem fcauseWritesAndReservedOffsetsDoNothing :
    Obligations.FcauseWritesAndReservedOffsetsDoNothing := by
  refine ⟨selectsWrite_of_write rfl rfl rfl, selects_of_read rfl rfl rfl,
    selectsWrite_of_write rfl rfl rfl, fun op h => ?_, fun op h => ?_,
    fun s _ _ => ⟨hostWrite_id s, rfl, rfl, hostWrite_id s, hostWrite_id s⟩⟩
  · obtain ⟨hv, hw, ha⟩ := and_highRowMask h rfl
    rw [decodeOp_read hv hw, readOf_high ha]
    rfl
  · obtain ⟨hv, hw, ha⟩ := and_highRowMask h rfl
    rw [decodeOp_write hv hw, writeOf_high ha]
    rfl

end Sys2Proof.Machine
end

section
/-! PROOFS. Which check a start command fails and what the block is then (41_transmit_engine.md
R150, R153), and the cycle of an engine that is not busy (R163). -/

namespace Sys2Proof.Machine

theorem goCheck_busyGo {s : State} (hb : s.busy = true) : goCheck s = some .busyGo :=
  if_pos hb

theorem goCheck_badPin {s : State} (hb : s.busy = false) (hlen : s.len ≠ 0)
    (hpin : s.cfg.numPins ≤ s.pin.toNat) : goCheck s = some .badPin := by
  simpa [goCheck, hb, hpin] using hlen

theorem goCheck_range {s : State} (hb : s.busy = false) (hlen : s.len ≠ 0)
    (hpin : s.pin.toNat < s.cfg.numPins) (hout : s.cfg.bufSize < s.addr.toNat + s.len.toNat) :
    goCheck s = some .range := by
  simpa [goCheck, hb, Nat.not_le_of_lt hpin, rangeEnd_toNat, hout] using hlen

theorem goCheck_drive (v : Byte) (s : State) : goCheck (s.drive v) = goCheck s := rfl

/-- A start command that fails a check takes the fault of that check (60_exceptions.md R197). -/
theorem exec_failingGo {s : State} {d : Byte} {c : FaultCode} (hd : goBit d = true)
    (hs : s.st ≠ .halt) (hg : goCheck s = some c) :
    exec (.wrCtrl d) s = .next ((s.drive 0).raise c) := by
  rw [exec_of_hostEffect rfl hs, writeCtrl, if_pos hd, goCheck_drive, hg]

theorem not_busy_of_idle {s : State} (hs : s.st = .idle) : s.busy = false :=
  (busy_eq_false_iff s).2 (by simp [hs])

/-- In `IDLE`, with bytes to send on a pin that exists, the range alone decides a start command: one
that does not fit halts the block. -/
theorem exec_go_shifts_iff {s : State} {d : Byte} (hd : goBit d = true) (hs : s.st = .idle)
    (hlen : 1 ≤ s.len.toNat) (hpin : s.pin.toNat < s.cfg.numPins) :
    (∃ t, exec (.wrCtrl d) s = .next t ∧ t.st = .shift) ↔
      s.addr.toNat + s.len.toNat ≤ s.cfg.bufSize := by
  refine ⟨fun ⟨t, ht, hst⟩ => Nat.le_of_not_lt fun hout => ?_,
    fun hfits => ⟨_, exec_acceptableGo hd ⟨hs, hlen, hpin, hfits⟩, rfl⟩⟩
  have hg := goCheck_range (not_busy_of_idle hs) (one_le_len_iff.1 hlen) hpin hout
  obtain rfl : _ = t := by simpa [exec_failingGo hd (by simp [hs]) hg] using ht
  simp at hst

/-- A range of at least one address ends within `size` when each of its addresses lies below it. -/
theorem rangeEnd_le_iff {a n size : Nat} (hn : 1 ≤ n) :
    a + n ≤ size ↔ ∀ j, j < n → a + j < size := by
  refine ⟨fun h j hj => by omega, fun h => ?_⟩
  have hlast := h (n - 1) (by omega)
  omega

theorem dout_of_not_busy {s : State} (hb : s.busy = false) (p : Nat) : s.dout p = false :=
  dout_other fun hs => absurd hs ((busy_eq_false_iff s).1 hb).1

/-- The cycle of an engine that is not busy is its transaction alone, whether or not it faults. -/
theorem step_of_not_busy {s t : State} (hl : s.cfg.Legal) (hr : s.input.rst = false)
    (ht : exec (fetch s) s = .next t) (hb : s.busy = false) : step s = .next t.advance := by
  by_cases hh : t.st = .halt
  · exact step_halted hl hr ht hh
  · exact step_cycle hl hr ht hh (engineAct_not_busy hb)

end Sys2Proof.Machine
end

section
/-! PROOFS. The obligations about the start command and the idle engine (41_transmit_engine.md R150,
R152, R153, R163): O29, O26, O27 and O32. -/

namespace Sys2Proof.Machine

/-- Settles O29: the check compares the unbounded sum, and the last byte of the range is the one
that decides. -/
theorem goIsAcceptedIffEveryByteExists : Obligations.GoIsAcceptedIffEveryByteExists := by
  intro s d hs hd hlen hpin
  have hshift := exec_go_shifts_iff hd hs hlen hpin
  exact ⟨hshift, hshift.trans (rangeEnd_le_iff hlen)⟩

/-- Settles O26: each clause is one outcome of the checks. -/
theorem goChecksInOrder : Obligations.GoChecksInOrder := by
  intro s d hd
  refine ⟨fun hbusy => ?_, fun hs hlen => ?_, fun hs hlen hpin => ?_, fun hs hlen hpin hout => ?_,
    fun hgo => ?_⟩
  · have hhalt : s.st ≠ .halt := by rcases hbusy with hs | hs <;> simp [hs]
    exact exec_failingGo hd hhalt (goCheck_busyGo ((busy_iff s).2 hbusy))
  · exact ⟨_, exec_zeroGo hd hs hlen, hs, rfl⟩
  · exact exec_failingGo hd (by simp [hs])
      (goCheck_badPin (not_busy_of_idle hs) (one_le_len_iff.1 hlen) hpin)
  · exact exec_failingGo hd (by simp [hs])
      (goCheck_range (not_busy_of_idle hs) (one_le_len_iff.1 hlen) hpin hout)
  · exact ⟨_, exec_acceptableGo hd hgo, rfl, rfl⟩

/-- Settles O27: the start passes the checks before `PIN` and `ADDR` are looked at, and the engine
stays in `IDLE`. -/
theorem zeroLengthGoOnlySetsDone : Obligations.ZeroLengthGoOnlySetsDone := by
  intro s d hs hd hlen
  have hb := not_busy_of_idle (s := zeroStart ((s.drive 0).setIrqEn (irqEnBit d))) hs
  exact ⟨_, exec_zeroGo hd hs hlen, rfl, hb, dout_of_not_busy hb⟩

/-- Settles O32: outside `SHIFT` and `TRAIL` the engine step holds, and the transaction keeps the
host's later inputs and the count of the draws. -/
theorem engineHoldsInIdleAndHalt : Obligations.EngineHoldsInIdleAndHalt := by
  intro s hs
  have hb : s.busy = false := (busy_eq_false_iff s).2 (by rcases hs with hs | hs <;> simp [hs])
  refine ⟨dout_of_not_busy hb, fun t hl hr ht => ?_⟩
  obtain ⟨_, hinputs, hdraws⟩ := exec_frame ht
  rw [step_of_not_busy hl hr ht hb, State.advance, hinputs, hdraws]

end Sys2Proof.Machine
end

section
/-! PROOFS. Which transactions fault and what a fault makes of the block, and what a halted block
answers (60_exceptions.md R190, R197, R198). -/

namespace Sys2Proof.Machine

open Sys2Proof.Claims

/-- The fault that a transaction takes outside `HALT`, if any (60_exceptions.md R190). -/
def transactionFault (i : Instr) (s : State) : Option FaultCode :=
  match i with
  | .wrCtrl d => if goBit d then goCheck s else none
  | .rdBdata | .wrBdata _ => if bptrInside s then none else some .bufBounds
  | _ => none

theorem transactionFault_wrCtrl_eq_some {d : Byte} {s : State} {c : FaultCode} :
    transactionFault (.wrCtrl d) s = some c ↔ goBit d = true ∧ goCheck s = some c := by
  simp [transactionFault]

theorem transactionFault_bdata_eq_some {i : Instr} (hi : i = .rdBdata ∨ ∃ d, i = .wrBdata d)
    {s : State} {c : FaultCode} :
    transactionFault i s = some c ↔ s.cfg.bufSize ≤ s.bptr.toNat ∧ c = .bufBounds := by
  have hdef : transactionFault i s = if bptrInside s then none else some .bufBounds := by
    obtain rfl | ⟨d, rfl⟩ := hi <;> rfl
  rw [hdef, ← bptrInside_eq_false_iff]
  cases bptrInside s <;> simp [eq_comm]

/-- A fault of a transaction comes from a start command or from a `BDATA` access. -/
theorem transactionFault_eq_some {i : Instr} {s : State} {c : FaultCode}
    (h : transactionFault i s = some c) :
    (∃ d, i = .wrCtrl d) ∨ i = .rdBdata ∨ ∃ d, i = .wrBdata d := by
  cases i
  case wrCtrl | rdBdata | wrBdata => simp
  all_goals exact nomatch h

theorem transactionFault_ne_none_code {i : Instr} {s : State} {c : FaultCode}
    (h : transactionFault i s = some c) : c ≠ .none := by
  obtain ⟨d, rfl⟩ | hb := transactionFault_eq_some h
  · exact goCheck_ne_none_code (transactionFault_wrCtrl_eq_some.1 h).2
  · obtain ⟨_, rfl⟩ := (transactionFault_bdata_eq_some hb).1 h
    decide

/-- A `BDATA` access beyond the buffer takes the fault `BUF_BOUNDS` (60_exceptions.md R191). -/
theorem exec_bdata_outside {i : Instr} (hi : i = .rdBdata ∨ ∃ d, i = .wrBdata d) {s : State}
    (hs : s.st ≠ .halt) (hout : s.cfg.bufSize ≤ s.bptr.toNat) :
    exec i s = .next ((s.drive 0).raise .bufBounds) := by
  have hin : ¬ bptrInside (s.drive 0) = true := by simpa [bptrInside_iff] using hout
  obtain rfl | ⟨d, rfl⟩ := hi
  · rw [exec_of_hostEffect rfl hs, readBdata, if_neg hin]
  · rw [exec_of_hostEffect rfl hs, writeBdata, if_neg hin]

/-- A transaction that takes its fault changes the engine state, the code and the read data alone
(60_exceptions.md R197). -/
theorem exec_of_transactionFault {i : Instr} {s : State} {c : FaultCode} (hs : s.st ≠ .halt)
    (h : transactionFault i s = some c) : exec i s = .next ((s.drive 0).raise c) := by
  obtain ⟨d, rfl⟩ | hb := transactionFault_eq_some h
  · obtain ⟨hd, hg⟩ := transactionFault_wrCtrl_eq_some.1 h
    exact exec_failingGo hd hs hg
  · obtain ⟨hout, rfl⟩ := (transactionFault_bdata_eq_some hb).1 h
    exact exec_bdata_outside hb hs hout

/-- Outside `CTRL` and `BDATA` no effect changes the engine state. -/
theorem hostEffect_st {i : Instr} {f : State → State} (hf : hostEffect i = some f)
    (hctrl : ∀ d, i ≠ .wrCtrl d) (hbdata : ¬(i = .rdBdata ∨ ∃ d, i = .wrBdata d)) (s : State) :
    (f s).st = s.st := by
  cases i <;> simp only [hostEffect, Option.some.injEq, reduceCtorEq] at hf <;> subst hf
  case wrCtrl d => exact absurd rfl (hctrl d)
  case rdBdata | wrBdata => simp at hbdata
  case wrStatus d => unfold writeStatus; split <;> rfl
  all_goals simp [RegPair.setLow, RegPair.setHigh]

theorem transactionFault_drive (i : Instr) (v : Byte) (s : State) :
    transactionFault i (s.drive v) = transactionFault i s := rfl

/-- A `CTRL` write halts the block only by a failing start check (40_register_access.md R113). -/
theorem writeCtrl_not_halted {d : Byte} {s : State} (hs : s.st ≠ .halt)
    (h : transactionFault (.wrCtrl d) s = none) : (writeCtrl d s).st ≠ .halt := by
  rcases writeCtrl_cases d s with ⟨_, hw⟩ | ⟨hd, c, hc, _⟩ | ⟨_, _, _, hw⟩ | ⟨_, _, _, hw⟩
  · simpa [hw] using hs
  · simp [transactionFault_wrCtrl_eq_some.2 ⟨hd, hc⟩] at h
  · simpa [hw] using hs
  · simp [hw]

theorem bptrInside_of_no_fault {i : Instr} (hi : i = .rdBdata ∨ ∃ d, i = .wrBdata d) {s : State}
    (h : transactionFault i s = none) : bptrInside s = true := by
  by_contra hout
  rw [bptrInside_iff, Nat.not_lt] at hout
  simp [(transactionFault_bdata_eq_some hi).2 ⟨hout, rfl⟩] at h

/-- An effect halts the block only by the fault of its transaction. -/
theorem hostEffect_not_halted_of_no_fault {i : Instr} {f : State → State}
    (hf : hostEffect i = some f) {s : State} (hs : s.st ≠ .halt) (h : transactionFault i s = none) :
    (f s).st ≠ .halt := by
  by_cases hctrl : ∃ d, i = .wrCtrl d
  · obtain ⟨d, rfl⟩ := hctrl
    obtain rfl : writeCtrl d = f := by simpa [hostEffect] using hf
    exact writeCtrl_not_halted hs h
  by_cases hbdata : i = .rdBdata ∨ ∃ d, i = .wrBdata d
  · have hin := bptrInside_of_no_fault hbdata h
    obtain rfl | ⟨d, rfl⟩ := hbdata
    · obtain rfl : readBdata = f := by simpa [hostEffect] using hf
      rw [readBdata, if_pos hin]
      exact hs
    · obtain rfl : writeBdata d = f := by simpa [hostEffect] using hf
      rw [writeBdata, if_pos hin]
      exact hs
  · rw [hostEffect_st hf (not_exists.1 hctrl) hbdata]
    exact hs

/-- A transaction that takes no fault does not halt the block. -/
theorem exec_not_halted_of_no_fault {i : Instr} {s t : State} (ht : exec i s = .next t)
    (hs : s.st ≠ .halt) (h : transactionFault i s = none) : t.st ≠ .halt := by
  rcases exec_cases i s with ⟨v, hv⟩ | ⟨_, f, hf, hv⟩
  · obtain rfl : t = s.drive v := by simpa using ht.symm.trans hv
    exact hs
  · obtain rfl : t = f (s.drive 0) := by simpa using ht.symm.trans hv
    exact hostEffect_not_halted_of_no_fault hf hs ((transactionFault_drive i 0 s).trans h)

/-- Outside `HALT` a transaction leads to `HALT` exactly by taking a fault. -/
theorem exec_halts_iff {i : Instr} {s t : State} (ht : exec i s = .next t) (hs : s.st ≠ .halt) :
    t.st = .halt ↔ ∃ c, transactionFault i s = some c := by
  constructor
  · intro hh
    exact Option.ne_none_iff_exists'.1 fun h => exec_not_halted_of_no_fault ht hs h hh
  · rintro ⟨c, hc⟩
    obtain rfl : _ = t := by simpa using (exec_of_transactionFault hs hc).symm.trans ht
    rfl

/-- A transaction that halts the block takes its fault (60_exceptions.md R197). -/
theorem exec_eq_raise_of_halts {i : Instr} {s t : State} (ht : exec i s = .next t)
    (hs : s.st ≠ .halt) (hh : t.st = .halt) :
    ∃ c, transactionFault i s = some c ∧ t = (s.drive 0).raise c := by
  obtain ⟨c, hc⟩ := (exec_halts_iff ht hs).1 hh
  exact ⟨c, hc, by simpa using ht.symm.trans (exec_of_transactionFault hs hc)⟩

/-- The cases that the spec lists are the faults of the transactions, with their codes
(60_exceptions.md R190, R196). -/
theorem faultCase_iff {i : Instr} {s : State} (hs : s.st ≠ .halt) (n : Nat) :
    FaultCase i s n ↔ ∃ c, transactionFault i s = some c ∧ codeNumber c = n := by
  constructor
  · rintro (⟨rfl, hb, hout⟩ | ⟨d, rfl, hd, hcheck⟩)
    · exact ⟨.bufBounds, (transactionFault_bdata_eq_some hb).2 ⟨hout, rfl⟩, rfl⟩
    · simp only [transactionFault_wrCtrl_eq_some]
      rcases hcheck with ⟨rfl, hbusy⟩ | ⟨rfl, hidle, hlen, hpin⟩ | ⟨rfl, hidle, hlen, hpin, hout⟩
      · exact ⟨.busyGo, ⟨hd, goCheck_busyGo ((busy_iff s).2 hbusy)⟩, rfl⟩
      · exact ⟨.badPin,
          ⟨hd, goCheck_badPin (not_busy_of_idle hidle) (one_le_len_iff.1 hlen) hpin⟩, rfl⟩
      · exact ⟨.range,
          ⟨hd, goCheck_range (not_busy_of_idle hidle) (one_le_len_iff.1 hlen) hpin hout⟩, rfl⟩
  · rintro ⟨c, hc, rfl⟩
    obtain ⟨d, rfl⟩ | hb := transactionFault_eq_some hc
    · obtain ⟨hd, hg⟩ := transactionFault_wrCtrl_eq_some.1 hc
      refine .inr ⟨d, rfl, hd, ?_⟩
      rcases goCheck_eq_some hg with ⟨rfl, hb⟩ | ⟨rfl, hb, hlen, hpin⟩ | ⟨rfl, hb, hlen, hpin, hout⟩
      · exact .inl ⟨rfl, (busy_iff s).1 hb⟩
      · exact .inr (.inl ⟨rfl, idle_of_not_busy hs hb, one_le_len_iff.2 hlen, hpin⟩)
      · exact .inr (.inr ⟨rfl, idle_of_not_busy hs hb, one_le_len_iff.2 hlen, hpin, hout⟩)
    · obtain ⟨hout, rfl⟩ := (transactionFault_bdata_eq_some hb).1 hc
      exact .inl ⟨rfl, hb, hout⟩

/-- The engine step never halts the block (60_exceptions.md R190). -/
theorem apply_not_halted (a : EngineAct) (s : State) {t : State} (h : t.st ≠ .halt) :
    (a.apply s t).st ≠ .halt := by
  cases a
  case lastByte | trailEnd => simp [EngineAct.apply]
  all_goals exact h

/-- A cycle without reset ends in `HALT` exactly when its transaction left the block there. -/
theorem step_halt_iff {s t s' : State} (hr : s.input.rst = false) (ht : exec (fetch s) s = .next t)
    (h : step s = .next s') : s'.st = .halt ↔ t.st = .halt := by
  obtain ⟨_, u, hu, hcase⟩ := step_cases_no_reset hr h
  obtain rfl : t = u := by simpa using ht.symm.trans hu
  obtain ⟨hh, rfl⟩ | ⟨hh, a, _, rfl⟩ := hcase
  · rfl
  · exact iff_of_false (apply_not_halted a s hh) hh

/-- In `HALT` every transaction answers from the held state (60_exceptions.md R198). -/
theorem exec_in_halt {s : State} (hs : s.st = .halt) (i : Instr) :
    exec i s = .next (s.drive (heldRead s i)) := by
  cases i
  case nop | rdCtrl | rdStatus | rdPinsel | rdAddrL | rdAddrH | rdLenL | rdLenH | rdBptrL |
    rdBptrH | rdFcause | rdRsvdB | rdRsvdHigh => rfl
  all_goals exact hostWrite_in_halt hs _

/-- A cycle without reset in `HALT` is its transaction alone. -/
theorem step_in_halt {s : State} (hl : s.cfg.Legal) (hr : s.input.rst = false) (hs : s.st = .halt) :
    step s = .next (s.drive (heldRead s (fetch s))).advance :=
  step_halted hl hr (exec_in_halt hs _) hs

end Sys2Proof.Machine
end

section
/-! PROOFS. The obligations about faults and the halted state (60_exceptions.md R190, R191, R197 to
R200): O42, O43, O45, O23 and O44. -/

namespace Sys2Proof.Machine

/-- Settles O42: the listed cases are the faults of the transactions, and the engine step halts no
block. -/
theorem faultsExactlyInTheListedCases : Obligations.FaultsExactlyInTheListedCases := by
  intro i s t hs ht
  simp only [faultCase_iff hs]
  refine ⟨?_, fun hh => ?_, ?_⟩
  · rw [exec_halts_iff ht hs, exists_comm]
    simp
  · obtain ⟨c, hc, rfl⟩ := exec_eq_raise_of_halts ht hs hh
    exact ⟨c, hc, (fcauseByte_toNat ((s.drive 0).raise c)).symm⟩
  · rintro s' - hr rfl h
    exact step_halt_iff hr ht h

/-- Settles O43: the faulting cycle is its transaction alone, and that took its fault. -/
theorem faultEntryKeepsEverythingElse : Obligations.FaultEntryKeepsEverythingElse := by
  intro s t hl hr hs ht hh
  have hstep := step_halted hl hr ht hh
  obtain ⟨c, hc, rfl⟩ := exec_eq_raise_of_halts ht hs hh
  refine ⟨transactionFault_ne_none_code hc, _, hstep, rfl, rfl, rfl, dout_of_not_busy rfl, ?_⟩
  simp [State.irq, State.fault]

/-- Settles O45: a halted block stays as it is but for the read data, and a reset makes it anew. -/
theorem onlyResetLeavesHalt : Obligations.OnlyResetLeavesHalt := by
  intro s s' hs h
  obtain ⟨hl, _⟩ := step_cases h
  refine ⟨fun hr => ?_, fun hr => ?_⟩
  · obtain rfl : _ = s' := by simpa using (step_in_halt hl hr hs).symm.trans h
    exact ⟨hs, (fault_iff _).2 hs, rfl⟩
  · obtain rfl : _ = s' := by simpa using (step_reset hl hr).symm.trans h
    exact ⟨rfl, rfl, rfl⟩

/-- Settles O23: both accesses take the fault before they touch `BPTR` or the buffer. -/
theorem bdataBeyondTheBufferFaults : Obligations.BdataBeyondTheBufferFaults :=
  fun _ hs hout =>
    ⟨exec_bdata_outside (.inl rfl) hs hout, fun d => exec_bdata_outside (.inr ⟨d, rfl⟩) hs hout⟩

/-- Settles O44: a halted block answers reads from the held state, and its engine holds. -/
theorem haltedBlockOnlyAnswersReads : Obligations.HaltedBlockOnlyAnswersReads := by
  refine fun i s hs => ⟨exec_in_halt hs i, ?_⟩
  rintro hl hr rfl
  exact step_in_halt hl hr hs

end Sys2Proof.Machine
end

section
/-! PROOFS. The encoder as the inverse of the decoder, on words and on the two bytes of a word
(30_encoding.md R90, R93, R94). -/

namespace Sys2Proof.Machine

theorem decodeOp_readWord (a : Offset) : decodeOp (readWord a) = readOf a := by
  simp [readWord, decodeOp_busWord]

theorem decodeOp_writeWord (a : Offset) (d : Byte) : decodeOp (writeWord a d) = writeOf a d := by
  simp [writeWord, decodeOp_busWord]

/-- The rows of the offsets 0xC to 0xF alone need well-formedness: they carry their offset as an
operand (30_encoding.md R94). -/
theorem decodeOp_encode {i : Instr} (h : i.wf = true) : decodeOp (encode i) = i := by
  cases i
  case nop => rfl
  case rdRsvdHigh a =>
    have ha : 12 ≤ a.toNat := by simpa [Instr.wf, highReserved] using h
    rw [encode, decodeOp_readWord, readOf_high ha]
  case wrRsvdHigh a d =>
    have ha : 12 ≤ a.toNat := by simpa [Instr.wf, highReserved] using h
    rw [encode, decodeOp_writeWord, writeOf_high ha]
  case rdCtrl | rdStatus | rdPinsel | rdAddrL | rdAddrH | rdLenL | rdLenH | rdBptrL | rdBptrH |
    rdBdata | rdFcause | rdRsvdB => exact decodeOp_readWord _
  all_goals exact decodeOp_writeWord ..

/-- The two bytes of a number below `2 ^ 14`, the low one first, hold the word of that number
(log 13). -/
theorem decodeBytes_ofNat {n : Nat} (h : n < 2 ^ 14) :
    decodeBytes [BitVec.ofNat 8 n, BitVec.ofNat 8 (n / 256)] =
      .ok (decodeOp (BitVec.ofNat 14 n), []) := by
  have hhi : (BitVec.ofNat 8 (n / 256)).toNat < 64 := by
    rw [BitVec.toNat_ofNat]
    omega
  have hword : (joinBytes (BitVec.ofNat 8 (n / 256)) (BitVec.ofNat 8 n)).setWidth 14 =
      BitVec.ofNat 14 n := by
    apply BitVec.eq_of_toNat_eq
    rw [BitVec.toNat_setWidth, joinBytes_toNat]
    simp only [BitVec.toNat_ofNat]
    omega
  rw [decodeBytes, if_pos hhi, ← hword, joinBytes]

theorem encodeBytes_eq (i : Instr) :
    encodeBytes i =
      [BitVec.ofNat 8 (encode i).toNat, BitVec.ofNat 8 ((encode i).toNat / 256)] := by
  have hlo : (encode i).setWidth 8 = BitVec.ofNat 8 (encode i).toNat :=
    BitVec.eq_of_toNat_eq (by simp)
  have hhi : (encode i >>> 8).setWidth 8 = BitVec.ofNat 8 ((encode i).toNat / 256) :=
    BitVec.eq_of_toNat_eq (by simp [Nat.shiftRight_eq_div_pow])
  rw [encodeBytes, hlo, hhi]

/-- On the bytes of its canonical word an instruction is decoded as on the word itself. -/
theorem decodeBytes_encodeBytes (i : Instr) :
    decodeBytes (encodeBytes i) = .ok (decodeOp (encode i), []) := by
  rw [encodeBytes_eq, decodeBytes_ofNat (encode i).isLt, BitVec.ofNat_toNat, BitVec.setWidth_eq]

theorem encode_readOf : ∀ a : Offset, encode (readOf a) = readWord a := by
  decide

theorem encode_writeOf (a : Offset) (d : Byte) : encode (writeOf a d) = writeWord a d := by
  unfold writeOf
  split
  case h_13 => rfl
  all_goals
    rename_i ha
    exact congrArg (writeWord · d) (BitVec.eq_of_toNat_eq ha.symm)

/-- The mask of the rows of one offset leaves of a word all but its data. -/
theorem busWord_and_rowMask (v w : Bool) (a : Offset) (d : Byte) :
    busWord v w a d &&& 0x3F00 = busWord v w a 0 := by
  apply BitVec.eq_of_getLsbD_eq
  intro i hi
  have hmask : (0x3F00 : OpWord).getLsbD i = decide (8 ≤ i) := by
    revert i
    decide
  rw [BitVec.getLsbD_and, hmask, busWord_getLsbD, busWord_getLsbD]
  by_cases h8 : i < 8
  · simp [h8]
  · simp [h8, Nat.le_of_not_lt h8]

theorem busWord_toNat (v w : Bool) (a : Offset) (d : Byte) :
    (busWord v w a d).toNat =
      v.toNat * 8192 + w.toNat * 4096 + a.toNat * 256 + d.toNat := by
  have hw : w.toNat < 2 ^ 1 := Bool.toNat_lt w
  have ha := a.isLt
  have hd := d.isLt
  show (BitVec.ofBool v ++ BitVec.ofBool w ++ a ++ d : BitVec (1 + 1 + 4 + 8)).toNat = _
  rw [BitVec.toNat_append, BitVec.toNat_append, BitVec.toNat_append, BitVec.toNat_ofBool,
    BitVec.toNat_ofBool, ← Nat.shiftLeft_add_eq_or_of_lt hd, ← Nat.shiftLeft_add_eq_or_of_lt ha,
    ← Nat.shiftLeft_add_eq_or_of_lt hw]
  simp only [Nat.shiftLeft_eq]
  omega

/-- The instruction of a table word of at most 14 significant bits is that of the word; the other
table words have none (log 13). -/
theorem decodeTableWord_eq_some {nbits w : Nat} {i : Instr} (h : decodeTableWord nbits w = some i) :
    decodeOp (opOfNat nbits w) = i := by
  unfold decodeTableWord at h
  unfold opOfNat
  generalize w % 2 ^ nbits = n at h ⊢
  split at h
  case isFalse => cases h
  case isTrue hn =>
    by_cases h14 : n < 2 ^ 14
    · rw [decodeBytes_ofNat h14] at h
      simpa using h
    · have hhi : ¬ (BitVec.ofNat 8 (n / 256)).toNat < 64 := by
        rw [BitVec.toNat_ofNat]
        omega
      rw [decodeBytes, if_neg hhi] at h
      cases h

end Sys2Proof.Machine
end

section
/-! PROOFS. The obligations about the words and their encoding (30_encoding.md R90 to R96): O1, O4,
O3, O5 and O8. -/

namespace Sys2Proof.Machine

/-- Settles O1: the word, then the two bytes, which decode as the word does. -/
theorem decodeOfEncodeIsTheInstruction : Obligations.DecodeOfEncodeIsTheInstruction := by
  intro i h
  have hword := decodeOp_encode h
  exact ⟨hword, by rw [decodeBytes_encodeBytes, hword]⟩

/-- Settles O4: the fields of the word select what is encoded again, and a mask takes the data of a
read away. -/
theorem encodeOfDecodeKeepsTheMeaningfulBits :
    Obligations.EncodeOfDecodeKeepsTheMeaningfulBits := by
  intro op
  show _ = op &&& (if opValid op = false then 0 else if opWrite op = false then 0x3F00 else 0x3FFF)
  have hop := busWord_fields op
  cases hv : opValid op with
  | false =>
    rw [decodeOp_of_not_valid hv]
    exact (BitVec.and_zero ..).symm
  | true =>
    cases hw : opWrite op with
    | false =>
      rw [hv, hw] at hop
      rw [decodeOp_read hv hw, encode_readOf, ← hop]
      simpa [readWord] using (busWord_and_rowMask true false _ _).symm
    | true =>
      rw [hv, hw] at hop
      rw [decodeOp, if_pos hv, if_pos hw, encode_writeOf, writeWord, hop]
      exact (BitVec.and_allOnes ..).symm

/-- Settles O3: the four fields side by side. -/
theorem wordFieldsSelectTheTransaction : Obligations.WordFieldsSelectTheTransaction := by
  intro v w a d
  refine ⟨busWord_toNat v w a d, ?_⟩
  rw [decodeOp_busWord]
  cases v <;> cases w <;> rfl

/-- Settles O5, by running the decoder. -/
theorem wordsOfTheSpecDecode : Obligations.WordsOfTheSpecDecode := by
  unfold Obligations.WordsOfTheSpecDecode
  decide

/-- Settles O8: the placed word is the head of the inputs. -/
theorem placedWordIsFetched : Obligations.PlacedWordIsFetched :=
  fun _ _ _ _ h => ⟨decodeTableWord_eq_some h, rfl, rfl⟩

end Sys2Proof.Machine
end

section
/-! PROOFS. The invariants of 10_state.md R61, kept by each transaction, by the engine step and so
by the cycle. -/

namespace Sys2Proof.Machine

open Sys2Proof.Claims

theorem half_succ_toNat {x : Half} {n : Nat} (h : x.toNat < n) (hn : n ≤ 65535) :
    (x + 1).toNat = x.toNat + 1 :=
  BitVec.toNat_add_of_lt (by simp; omega)

theorem half_pred_toNat {x : Half} (h : 1 ≤ x.toNat) : (x - 1).toNat = x.toNat - 1 :=
  BitVec.toNat_sub_of_le h

theorem inv_raise {s : State} {c : FaultCode} (h : Inv s) (hc : c ≠ .none) : Inv (s.raise c) := by
  obtain ⟨hl, hbuf, _⟩ := h
  exact ⟨hl, hbuf, nofun, nofun, iff_of_false hc fun hs => hs rfl⟩

theorem inv_resetBlock {s : State} (hl : s.cfg.Legal)
    (hbuf : Memory.wf s.cfg.bufSize s.buf = true) : Inv s.resetBlock :=
  ⟨hl, hbuf, nofun, nofun, iff_of_true rfl nofun⟩

/-- An accepted start puts the working registers where the invariants want them: the range fits the
buffer, hence neither `ADDR + 1` nor `LEN - 1` wraps. -/
theorem inv_start {s : State} (h : Inv s) (hgo : AcceptableGo s) : Inv (start s) := by
  obtain ⟨hl, hbuf, _, _, hcode⟩ := h
  obtain ⟨hidle, hlen, hpin, hfits⟩ := hgo
  have htbit : 0 < s.cfg.tbit := by omega
  have hptr : (s.addr + 1).toNat = s.addr.toNat + 1 :=
    half_succ_toNat (n := s.cfg.bufSize) (by omega) (by omega)
  have hrem : (s.len - 1).toNat = s.len.toNat - 1 := half_pred_toNat hlen
  have hend : (s.addr + 1).toNat + (s.len - 1).toNat ≤ s.cfg.bufSize := by omega
  exact ⟨hl, hbuf, fun _ => ⟨htbit, hpin, hend⟩, nofun,
    iff_of_true (hcode.2 (by simp [hidle])) (by simp)⟩

theorem inv_writeCtrl {s : State} (h : Inv s) (hs : s.st ≠ .halt) (d : Byte) :
    Inv (writeCtrl d s) := by
  rcases writeCtrl_cases d s with ⟨_, hw⟩ | ⟨_, c, hc, hw⟩ | ⟨_, _, _, hw⟩ | ⟨_, hg, hlen, hw⟩
  · rw [hw]
    exact h
  · rw [hw]
    exact inv_raise h (goCheck_ne_none_code hc)
  · rw [hw]
    exact h
  · obtain ⟨hb, hok⟩ := (goCheck_eq_none_iff s).1 hg
    rw [hw]
    exact inv_start (s := s.setIrqEn (irqEnBit d)) h
      ⟨idle_of_not_busy hs hb, one_le_len_iff.2 hlen, hok.resolve_left hlen⟩

theorem inv_readBdata {s : State} (h : Inv s) : Inv (readBdata s) := by
  unfold readBdata
  split
  · exact h
  · exact inv_raise h (by decide)

theorem inv_writeBdata {s : State} (h : Inv s) (d : Byte) : Inv (writeBdata d s) := by
  unfold writeBdata
  split
  · rename_i hin
    obtain ⟨hl, hbuf, hrest⟩ := h
    exact ⟨hl, Memory.wf_write d ((bptrInside_iff s).1 hin) s.buf hbuf, hrest⟩
  · exact inv_raise h (by decide)

/-- Every other effect changes registers that the invariants do not speak of. -/
theorem hostEffect_inv {i : Instr} {f : State → State} (hf : hostEffect i = some f) {s : State}
    (h : Inv s) (hs : s.st ≠ .halt) : Inv (f s) := by
  cases i <;> simp only [hostEffect, Option.some.injEq, reduceCtorEq] at hf <;> subst hf
  case wrCtrl d => exact inv_writeCtrl h hs d
  case rdBdata => exact inv_readBdata h
  case wrBdata d => exact inv_writeBdata h d
  case wrStatus d => unfold writeStatus; split <;> exact h
  all_goals exact h

theorem exec_inv {i : Instr} {s t : State} (h : Inv s) (ht : exec i s = .next t) : Inv t := by
  rcases exec_cases i s with ⟨v, hv⟩ | ⟨hs, f, hf, hv⟩
  · obtain rfl : t = s.drive v := by simpa using ht.symm.trans hv
    exact h
  · obtain rfl : t = f (s.drive 0) := by simpa using ht.symm.trans hv
    exact hostEffect_inv hf (s := s.drive 0) h hs

/-- The engine step keeps the invariants of the working state (10_state.md R61). -/
theorem engineAct_inv {s : State} {a : EngineAct} (h : Inv s) (ha : engineAct s = .ok a) :
    Inv (a.apply s s) := by
  obtain ⟨hl, hbuf, hshift, htrail, hcode⟩ := h
  rcases engineAct_cases ha with ⟨rfl, _⟩ | ⟨rfl, hs, hph⟩ | ⟨rfl, hs, _, _⟩ |
    ⟨rfl, hs, _, _, hrem, hptr⟩ | ⟨rfl, hs, _⟩ | ⟨rfl, hs, htcnt⟩ | ⟨rfl, hs, _⟩
  case inl => exact ⟨hl, hbuf, hshift, htrail, hcode⟩
  all_goals have hnone : s.fcause = .none := hcode.2 (by simp [hs])
  · obtain ⟨_, hrest⟩ := hshift hs
    have hph' : s.ph + 1 < s.cfg.tbit := by omega
    exact ⟨hl, hbuf, fun _ => ⟨hph', hrest⟩, htrail, hcode⟩
  · obtain ⟨_, hrest⟩ := hshift hs
    have hph' : 0 < s.cfg.tbit := by omega
    exact ⟨hl, hbuf, fun _ => ⟨hph', hrest⟩, htrail, hcode⟩
  · obtain ⟨_, hpin, hend⟩ := hshift hs
    have hph' : 0 < s.cfg.tbit := by omega
    have hend' : (s.ptr + 1).toNat + (s.rem - 1).toNat ≤ s.cfg.bufSize := by
      rw [half_succ_toNat hptr (by omega), half_pred_toNat hrem]
      omega
    exact ⟨hl, hbuf, fun _ => ⟨hph', hpin, hend'⟩, htrail, hcode⟩
  · have htcnt' : 0 < s.cfg.trail := by omega
    exact ⟨hl, hbuf, nofun, fun _ => htcnt', iff_of_true hnone nofun⟩
  · have htcnt' : s.tcnt + 1 < s.cfg.trail := by omega
    exact ⟨hl, hbuf, hshift, fun _ => htcnt', hcode⟩
  · exact ⟨hl, hbuf, nofun, nofun, iff_of_true hnone nofun⟩

/-- The invariants speak of the engine, the buffer and the code. -/
theorem inv_of_sameEngine {s u : State} (h : SameEngine u s) (hs : Inv s)
    (hbuf : Memory.wf u.cfg.bufSize u.buf = true) (hcode : u.fcause = .none ↔ u.st ≠ .halt) :
    Inv u := by
  obtain ⟨hl, _, hshift, htrail, _⟩ := hs
  obtain ⟨hcfg, hst, _, _, hph, hrem, hptr, hlpin, htcnt⟩ := h
  refine ⟨hcfg ▸ hl, hbuf, ?_, ?_, hcode⟩
  · rw [ShiftOk, hcfg, hst, hph, hrem, hptr, hlpin]
    exact hshift
  · rw [hcfg, hst, htcnt]
    exact htrail

/-- The engine step keeps the invariants when it is written onto what the transaction of its cycle
made. -/
theorem apply_inv {i : Instr} {s t : State} {a : EngineAct} (h : Inv s) (ht : exec i s = .next t)
    (hh : t.st ≠ .halt) (ha : engineAct s = .ok a) : Inv (a.apply s t) := by
  have hinv := exec_inv h ht
  cases hb : s.busy with
  | false =>
    obtain rfl := eq_hold_of_not_busy ha hb
    exact hinv
  | true =>
    obtain ⟨_, hbuf, _, _, hcode⟩ := hinv
    exact inv_of_sameEngine (apply_sameEngine a s (exec_sameEngine_of_busy ht hb hh))
      (engineAct_inv h ha) (by simpa using hbuf)
      (iff_of_true (by simpa using hcode.2 hh) (apply_not_halted a s hh))

theorem step_inv {s s' : State} (hinv : Inv s) (h : step s = .next s') : Inv s' := by
  obtain ⟨hl, ⟨_, rfl⟩ | ⟨_, t, ht, ⟨_, rfl⟩ | ⟨hh, a, ha, rfl⟩⟩⟩ := step_cases h
  · exact inv_resetBlock hl hinv.2.1
  · exact (exec_inv hinv ht : Inv t)
  · exact apply_inv hinv ht hh ha

/-- Under the invariants the engine never loads from beyond the buffer (10_state.md R52). -/
theorem engineAct_answers {s : State} (h : Inv s) : ∃ a, engineAct s = .ok a := by
  cases ha : engineAct s with
  | ok a => exact ⟨a, rfl⟩
  | error f =>
    obtain ⟨hs, hrem, hptr⟩ := engineAct_error ha
    obtain ⟨_, _, hshift, _⟩ := h
    obtain ⟨_, _, hend⟩ := hshift hs
    omega

theorem step_answers {s : State} (h : Inv s) : ∃ s', step s = .next s' := by
  have hl : s.cfg.Legal := h.1
  cases hr : s.input.rst with
  | true => exact ⟨_, step_reset hl hr⟩
  | false =>
    obtain ⟨t, ht⟩ := exec_answers (fetch s) s
    by_cases hh : t.st = .halt
    · exact ⟨_, step_halted hl hr ht hh⟩
    · obtain ⟨a, ha⟩ := engineAct_answers h
      exact ⟨_, step_cycle hl hr ht hh ha⟩

end Sys2Proof.Machine
end

section
/-! PROOFS. The obligations about the invariants (10_state.md R61): O49, O50 and O48. -/

namespace Sys2Proof.Machine

/-- Settles O49: reset, transaction and engine step each keep the invariants. -/
theorem everyStepKeepsTheInvariants : Obligations.EveryStepKeepsTheInvariants := by
  refine fun s s' hinv h => ⟨step_inv hinv h, fun hs => dout_of_not_busy ?_⟩
  rw [busy_eq_false_iff]
  rcases hs with hs | hs <;> simp [hs]

/-- Settles O50: no transaction stops the machine, and under the invariants no engine step does. -/
theorem noStepStopsUnderTheInvariants : Obligations.NoStepStopsUnderTheInvariants :=
  fun _ => step_answers

/-- Settles O48: the state after a reset meets the invariants under every legal configuration. -/
theorem resetStateMeetsTheInvariants : Obligations.ResetStateMeetsTheInvariants :=
  inv_resetBlock (s := State.reset) (by decide) Memory.wf_reset

end Sys2Proof.Machine
end

section
/-! PROOFS. The cycle of a busy engine as a step of the engine alone (41_transmit_engine.md R172),
and what the engine step reads. -/

namespace Sys2Proof.Machine

open Sys2Proof.Claims

theorem sameEngine_trans {s t u : State} (h : SameEngine s t) (h' : SameEngine t u) :
    SameEngine s u := by
  obtain ⟨hcfg, hst, hsh, hnb, hph, hrem, hptr, hlpin, htcnt⟩ := h
  obtain ⟨hcfg', hst', hsh', hnb', hph', hrem', hptr', hlpin', htcnt'⟩ := h'
  exact ⟨hcfg.trans hcfg', hst.trans hst', hsh.trans hsh', hnb.trans hnb', hph.trans hph',
    hrem.trans hrem', hptr.trans hptr', hlpin.trans hlpin', htcnt.trans htcnt'⟩

theorem sameEngine_symm {s u : State} (h : SameEngine s u) : SameEngine u s := by
  obtain ⟨hcfg, hst, hsh, hnb, hph, hrem, hptr, hlpin, htcnt⟩ := h
  exact ⟨hcfg.symm, hst.symm, hsh.symm, hnb.symm, hph.symm, hrem.symm, hptr.symm, hlpin.symm,
    htcnt.symm⟩

/-- A cycle that neither resets nor faults takes a busy engine one engine step on, whatever its
transaction (20_memory.md R85). -/
theorem apply_sameEngine_of_runsCycle {s t : State} (hrun : RunsCycle s t) (hb : s.busy = true)
    (a : EngineAct) : SameEngine (a.apply s t).advance (a.apply s s) := by
  obtain ⟨_, _, ht, hh⟩ := hrun
  exact apply_sameEngine a s (exec_sameEngine_of_busy ht hb hh)

theorem step_of_runsCycle {s t : State} {a : EngineAct} (hrun : RunsCycle s t)
    (ha : engineAct s = .ok a) : step s = .next (a.apply s t).advance := by
  obtain ⟨hl, hr, ht, hh⟩ := hrun
  exact step_cycle hl hr ht hh ha

/-- What a cycle that neither resets nor faults answers comes from an engine step. -/
theorem engineAct_of_step {s t s' : State} (hrun : RunsCycle s t) (h : step s = .next s') :
    ∃ a, engineAct s = .ok a ∧ s' = (a.apply s t).advance := by
  obtain ⟨_, hr, ht, hh⟩ := hrun
  obtain ⟨_, u, hu, hcase⟩ := step_cases_no_reset hr h
  obtain rfl : t = u := by simpa using ht.symm.trans hu
  obtain ⟨hh', _⟩ | ⟨_, hact⟩ := hcase
  · exact absurd hh' hh
  · exact hact

/-- Where the engine would load a byte that does not exist, the cycle stops with that fault
(log 10). -/
theorem step_engineError {s t : State} {f : Fault} (hl : s.cfg.Legal) (hr : s.input.rst = false)
    (ht : exec (fetch s) s = .next t) (hh : t.st ≠ .halt) (hf : engineAct s = .error f) :
    step s = .fault f := by
  simp [step, hl, hr, ht, finishCycle, hh, hf]

theorem step_not_refused {s : State} (hl : s.cfg.Legal) (r : Refusal) : step s ≠ .refused r := by
  cases hr : s.input.rst with
  | true => simp [step_reset hl hr]
  | false =>
    obtain ⟨t, ht⟩ := exec_answers (fetch s) s
    by_cases hh : t.st = .halt
    · simp [step_halted hl hr ht hh]
    · cases ha : engineAct s with
      | ok a => simp [step_cycle hl hr ht hh ha]
      | error f => simp [step_engineError hl hr ht hh ha]

/-- The cycle of a busy engine is a reset, halts the block, or takes the engine one step on. -/
theorem step_engine_cases {s s' : State} (h : step s = .next s') (hb : s.busy = true) :
    (s.input.rst = true ∧ s'.st = .idle) ∨ s'.st = .halt ∨
      ∃ a, engineAct s = .ok a ∧ SameEngine s' (a.apply s s) ∧
        (a = .trailEnd → s'.done = true) := by
  obtain ⟨hl, ⟨hr, rfl⟩ | ⟨hr, t, ht, ⟨hh, rfl⟩ | ⟨hh, a, ha, rfl⟩⟩⟩ := step_cases h
  · exact .inl ⟨hr, rfl⟩
  · exact .inr (.inl hh)
  · refine .inr (.inr ⟨a, ha, apply_sameEngine_of_runsCycle ⟨hl, hr, ht, hh⟩ hb a, ?_⟩)
    intro hend
    simp [apply_done, hend]

theorem sh_shiftLeft_toNat (b : Byte) : (b <<< 1).toNat = b.toNat * 2 % 256 := by
  rw [BitVec.toNat_shiftLeft, Nat.shiftLeft_eq]

theorem bitIndex_succ_toNat {x : BitVec 3} (h : x.toNat < 7) : (x + 1).toNat = x.toNat + 1 :=
  BitVec.toNat_add_of_lt (by simp; omega)

/-- The engine step is decided by the working state, the byte at `ptr` and the draw of the cycle. -/
theorem engineAct_congr {s u : State} (h : SameEngine s u) (hd : s.draws = u.draws)
    (hread : Memory.read s.ptr.toNat s.buf = Memory.read s.ptr.toNat u.buf) :
    engineAct s = engineAct u := by
  obtain ⟨hcfg, hst, _, hnb, hph, hrem, hptr, _, htcnt⟩ := h
  have hload : s.engineLoad s.ptr = u.engineLoad u.ptr := by
    rw [State.engineLoad, State.engineLoad, hread, hcfg, hd, hptr]
  rw [engineAct, engineAct, shiftAct, shiftAct, trailAct, trailAct, hload, hcfg, hst, hnb, hph,
    hrem, hptr, htcnt]

theorem apply_self_sameEngine {s u : State} (a : EngineAct) (h : SameEngine s u) :
    SameEngine (a.apply s s) (a.apply u u) := by
  obtain ⟨hcfg, hst, hsh, hnb, hph, hrem, hptr, hlpin, htcnt⟩ := h
  cases a <;> simp [SameEngine, EngineAct.apply, *]

/-- The pins show the working state (41_transmit_engine.md R155). -/
theorem dout_of_sameEngine {s u : State} (h : SameEngine s u) (p : Nat) : s.dout p = u.dout p := by
  obtain ⟨hcfg, hst, hsh, _, hph, _, _, hlpin, _⟩ := h
  simp only [State.dout, State.slotHigh, State.currentBit, hcfg, hst, hsh, hph, hlpin]

/-- Of the engine steps only a load moves `ptr`, and it takes 1 from `rem` (10_state.md R52). -/
theorem apply_end {s : State} {a : EngineAct} (hl : s.cfg.Legal) (ha : engineAct s = .ok a) :
    (a.apply s s).ptr.toNat + (a.apply s s).rem.toNat = s.ptr.toNat + s.rem.toNat ∧
      s.ptr.toNat ≤ (a.apply s s).ptr.toNat := by
  cases a with
  | nextByte b =>
    obtain ⟨_, _, _, _, hleft, hin⟩ : b = s.engineLoad s.ptr ∧ s.st = .shift ∧
        ¬ s.ph < s.cfg.tbit - 1 ∧ s.nb.toNat = 7 ∧ 0 < s.rem.toNat ∧
        s.ptr.toNat < s.cfg.bufSize := by
      simpa using engineAct_cases ha
    have hptr : (s.ptr + 1).toNat = s.ptr.toNat + 1 := half_succ_toNat hin (by omega)
    have hrem : (s.rem - 1).toNat = s.rem.toNat - 1 := half_pred_toNat hleft
    show (s.ptr + 1).toNat + (s.rem - 1).toNat = _ ∧ _ ≤ (s.ptr + 1).toNat
    omega
  | hold | nextPhase | nextBit | lastByte | trailCount | trailEnd => exact ⟨rfl, le_rfl⟩

theorem exec_rdBdata_inside {s : State} (hs : s.st ≠ .halt) (hin : s.bptr.toNat < s.cfg.bufSize) :
    exec .rdBdata s = .next (s.drive (s.hostLoad s.bptr)).bumpBptr := by
  have hin' : bptrInside (s.drive 0) = true := (bptrInside_iff _).2 hin
  rw [exec_of_hostEffect rfl hs, readBdata, if_pos hin']
  rfl

theorem exec_wrBdata_inside {s : State} (hs : s.st ≠ .halt) (hin : s.bptr.toNat < s.cfg.bufSize)
    (d : Byte) : exec (.wrBdata d) s = .next ((s.drive 0).storeAtBptr d).bumpBptr := by
  have hin' : bptrInside (s.drive 0) = true := (bptrInside_iff _).2 hin
  rw [exec_of_hostEffect rfl hs, writeBdata, if_pos hin']

end Sys2Proof.Machine
end

section
/-! PROOFS. The obligations about the step and the engine step (41_transmit_engine.md R156 to R162,
20_memory.md R84, R85): O30, O34, O35, O36, O7, O9 and O31. -/

namespace Sys2Proof.Machine

/-- Settles O30: the phase, the bit and the bytes left decide the engine step, and it alone moves
the working state. -/
theorem engineStepInShift : Obligations.EngineStepInShift := by
  intro s t hinv hrun hs
  have hbusy : s.busy = true := (busy_iff s).2 (.inl hs)
  obtain ⟨a, ha⟩ := engineAct_answers hinv
  obtain ⟨hl, _, hshift, _⟩ := hinv
  obtain ⟨_, _, hend⟩ := hshift hs
  obtain ⟨_, hst, hsh, hnb, hph, hrem, hptr, hlpin, htcnt⟩ :=
    apply_sameEngine_of_runsCycle hrun hbusy a
  refine ⟨_, step_of_runsCycle hrun ha, hlpin.trans (EngineAct.apply_lpin a s s), fun h => ?_,
    fun h hbit => ?_, fun h hbit hleft => ?_, fun h hbit hleft => ?_⟩
  · obtain rfl : a = .nextPhase := by simpa [engineAct_nextPhase hs h] using ha.symm
    exact ⟨hph, hst.trans hs, hsh, hnb, hrem, hptr, htcnt⟩
  · obtain rfl : a = .nextBit := by
      simpa [engineAct_nextBit hs (Nat.not_lt_of_ge h.ge) hbit] using ha.symm
    exact ⟨hph, (congrArg BitVec.toNat hnb).trans (bitIndex_succ_toNat hbit),
      (congrArg BitVec.toNat hsh).trans (sh_shiftLeft_toNat s.sh), hst.trans hs, hrem, hptr, htcnt⟩
  · have hin : s.ptr.toNat < s.cfg.bufSize := by omega
    obtain rfl : a = .nextByte (s.engineLoad s.ptr) := by
      simpa [engineAct_nextByte hs (Nat.not_lt_of_ge h.ge) hbit hleft hin] using ha.symm
    exact ⟨hph, hnb, (congrArg BitVec.toNat hptr).trans (half_succ_toNat hin (by omega)),
      (congrArg BitVec.toNat hrem).trans (half_pred_toNat hleft), hst.trans hs, htcnt,
      fun v hv => hsh.trans (engineLoad_written hv), fun hv => hsh.trans (engineLoad_unwritten hv)⟩
  · obtain rfl : a = .lastByte := by
      simpa [engineAct_lastByte hs (Nat.not_lt_of_ge h.ge) hbit hleft] using ha.symm
    exact ⟨hst, htcnt, hsh, hnb, hph, hrem, hptr⟩

/-- Settles O34: the load reads the state of the cycle, the store is in the next one. -/
theorem sameCycleWriteIsNotLoaded : Obligations.SameCycleWriteIsNotLoaded := by
  intro s d v hinv hr hf hs hph hbit hleft hbptr hread
  obtain ⟨hl, _, hshift, _⟩ := hinv
  obtain ⟨_, _, hend⟩ := hshift hs
  have hin : s.ptr.toNat < s.cfg.bufSize := by omega
  have ha := engineAct_nextByte hs (Nat.not_lt_of_ge hph.ge) hbit hleft hin
  have ht : exec (fetch s) s = .next ((s.drive 0).storeAtBptr d).bumpBptr := by
    rw [hf, exec_wrBdata_inside (by simp [hs]) (hbptr ▸ hin)]
  refine ⟨_, step_cycle hl hr ht (by simp [hs]) ha, engineLoad_written hread, ?_⟩
  rw [← hbptr]
  exact Memory.read_write_same ..

/-- Settles O35: the same engine step, made on the same working state. -/
theorem engineIgnoresTheHost : Obligations.EngineIgnoresTheHost := by
  intro s u s₁ u₁ s' u' hsame hdraws hread hb hrun hrun' h h'
  have hb' : u.busy = true := by
    obtain ⟨_, hst, _⟩ := hsame
    rwa [busy_iff, ← hst, ← busy_iff]
  obtain ⟨a, ha, rfl⟩ := engineAct_of_step hrun h
  obtain ⟨a', ha', rfl⟩ := engineAct_of_step hrun' h'
  obtain rfl : a = a' := by
    simpa [ha, ha'] using engineAct_congr hsame hdraws hread
  have hnext := sameEngine_trans (apply_sameEngine_of_runsCycle hrun hb a)
    (sameEngine_trans (apply_self_sameEngine a hsame)
      (sameEngine_symm (apply_sameEngine_of_runsCycle hrun' hb' a)))
  exact ⟨hnext, fun p => ⟨dout_of_sameEngine hsame p, dout_of_sameEngine hnext p⟩⟩

/-- Settles O36: a cycle that stays in `SHIFT` is an engine step. -/
theorem endAddressIsKept : Obligations.EndAddressIsKept := by
  intro s s' hinv hs h hs'
  obtain ⟨hl, _⟩ := hinv
  obtain ⟨_, hidle⟩ | hhalt | ⟨a, ha, ⟨_, _, _, _, _, hrem, hptr, _⟩, _⟩ :=
    step_engine_cases h ((busy_iff s).2 (.inl hs))
  · simp [hidle] at hs'
  · simp [hhalt] at hs'
  · rw [hrem, hptr]
    exact apply_end hl ha

/-- Settles O7: with the transaction's state in hand, the halted block and the two answers of the
engine are the three cases of the cycle. -/
theorem stepRunsTheDecodedTransaction : Obligations.StepRunsTheDecodedTransaction := by
  rintro s t i hl hr rfl ht
  refine ⟨step_halted hl hr ht, fun hh a ha => ?_, fun hh f => step_engineError hl hr ht hh⟩
  rw [step_cycle hl hr ht hh ha, State.advance, EngineAct.apply_inputs, EngineAct.apply_draws]

/-- Settles O9: under a legal configuration every way through the cycle ends in a next state or in
the engine's fault. -/
theorem onlyIllegalConfigurationsAreRefused : Obligations.OnlyIllegalConfigurationsAreRefused :=
  fun _ => ⟨fun ⟨r, hr⟩ hl => step_not_refused hl r hr, fun hl => ⟨_, if_neg hl⟩⟩

/-- Settles O31: the trailer counter decides the engine step. -/
theorem engineStepInTrail : Obligations.EngineStepInTrail := by
  intro s t hrun hs
  have hst : t.st = .trail := by
    obtain ⟨_, _, ht, hh⟩ := hrun
    obtain ⟨hst, _⟩ := exec_working_of_busy ht ((busy_iff s).2 (.inr hs)) hh
    exact hst.trans hs
  by_cases hcount : s.tcnt < s.cfg.trail - 1
  · exact ⟨_, step_of_runsCycle hrun (engineAct_trailCount hs hcount),
      fun _ => ⟨hst, rfl, rfl⟩, fun hend => absurd hend hcount.ne⟩
  · exact ⟨_, step_of_runsCycle hrun (engineAct_trailEnd hs hcount),
      fun h => absurd h hcount, fun _ => ⟨rfl, rfl⟩⟩

end Sys2Proof.Machine
end

section
/-! PROOFS. What the reads of a half and a `CTRL` write without a start answer
(40_register_access.md R113, R118 to R128). -/

namespace Sys2Proof.Machine

open Sys2Proof.Claims

theorem exec_readLow (p : RegPair) (s : State) :
    exec (readLow p) s = .next (s.drive (lowByte (p.get s))) := by
  cases p <;> rfl

theorem exec_readHigh (p : RegPair) (s : State) :
    exec (readHigh p) s = .next (s.drive (highByte (p.get s))) := by
  cases p <;> rfl

/-- A `CTRL` write without the start bit sets `IRQ_EN` alone (40_register_access.md R113). -/
theorem exec_ctrlWithoutGo {s : State} {d : Byte} (hs : s.st ≠ .halt) (hd : goBit d = false) :
    exec (.wrCtrl d) s = .next ((s.drive 0).setIrqEn (irqEnBit d)) := by
  rw [exec_of_hostEffect rfl hs, writeCtrl, hd]
  rfl

end Sys2Proof.Machine
end

section
/-! PROOFS. The obligations about single transactions and about what they leave unchanged
(40_register_access.md section 2): O47, O14, O21, O22, O25 and O28. -/

namespace Sys2Proof.Machine

/-- Settles O47: each effect changes what its own row of the register map names; a `BDATA` access
beyond the buffer and a failing start change the engine state and the code alone. -/
theorem transactionFrames : Obligations.TransactionFrames := by
  intro i s t ht
  rcases exec_cases i s with ⟨v, hv⟩ | ⟨_, f, hf, hv⟩
  · obtain rfl : t = s.drive v := by simpa using ht.symm.trans hv
    simp
  · obtain rfl : t = f (s.drive 0) := by simpa using ht.symm.trans hv
    cases i <;> simp only [hostEffect, Option.some.injEq, reduceCtorEq] at hf <;> subst hf
    case wrCtrl d =>
      rcases writeCtrl_cases d (s.drive 0) with
        ⟨_, h⟩ | ⟨_, c, _, h⟩ | ⟨_, _, _, h⟩ | ⟨_, _, _, h⟩ <;> rw [h] <;> simp
    case wrStatus d => unfold writeStatus; split <;> simp
    case rdBdata => unfold readBdata; split <;> simp
    case wrBdata d =>
      unfold writeBdata
      split
      · simp +contextual [State.storeAtBptr, bdataAddress, Memory.read_write_other]
      · simp
    all_goals simp [RegPair.setLow, RegPair.setHigh, RegPair.set]

/-- Settles O14: a half as read is the half of the pair. -/
theorem registerPairsReadByHalves : Obligations.RegisterPairsReadByHalves :=
  ⟨selects_of_read rfl rfl rfl, selects_of_read rfl rfl rfl, selects_of_read rfl rfl rfl,
    selects_of_read rfl rfl rfl, selects_of_read rfl rfl rfl, selects_of_read rfl rfl rfl,
    fun p s => ⟨⟨_, exec_readLow p s, lowByte_toNat _⟩, _, exec_readHigh p s, highByte_toNat _⟩⟩

/-- Settles O21: the host's load at `BPTR`, written or drawn. -/
theorem rdBdataReadsAndIncrements : Obligations.RdBdataReadsAndIncrements := by
  refine ⟨selects_of_read rfl rfl rfl, fun s hs hin => ⟨fun v hv => ?_, fun hv => ?_, fun hl => ?_⟩,
    fun s hs => exec_in_halt hs _⟩
  · rw [exec_rdBdata_inside hs hin, hostLoad_written hv]
    rfl
  · rw [exec_rdBdata_inside hs hin, hostLoad_unwritten hv]
    rfl
  · exact half_succ_toNat hin (by omega)

/-- Settles O22, by the laws of the buffer RAM. -/
theorem wrBdataStoresAndIncrements : Obligations.WrBdataStoresAndIncrements := by
  refine ⟨selectsWrite_of_write rfl rfl rfl, fun s d hs hin =>
    ⟨_, exec_wrBdata_inside hs hin d, Memory.read_write_same .., fun a ha =>
      Memory.read_write_other ha .., Memory.wf_write d hin _, fun hl => ?_⟩⟩
  exact half_succ_toNat hin (by omega)

/-- Settles O25: without the start bit nothing is checked. -/
theorem wrCtrlWithoutGoSetsIrqEn : Obligations.WrCtrlWithoutGoSetsIrqEn :=
  ⟨selectsWrite_of_write rfl rfl rfl, fun _ _ hs hd => exec_ctrlWithoutGo hs hd⟩

/-- Settles O28: the start loads the byte at `ADDR`; the range fits the buffer, so neither
`ADDR + 1` nor `LEN - 1` wraps. -/
theorem acceptedGoLoadsTheEngine : Obligations.AcceptedGoLoadsTheEngine := by
  intro s d hl hd ⟨hidle, hlen, hpin, hfits⟩
  exact ⟨s.engineLoad s.addr, exec_acceptableGo hd ⟨hidle, hlen, hpin, hfits⟩,
    fun _ => engineLoad_written, engineLoad_unwritten,
    half_succ_toNat (n := s.cfg.bufSize) (by omega) (by omega),
    half_pred_toNat hlen⟩

end Sys2Proof.Machine
end

section
/-! PROOFS. Which transactions change a register pair, a buffer byte or `BUSY`, and that the engine
step changes no register (10_state.md R37 to R39, R44, 20_memory.md R72, 40_register_access.md
R136). -/

namespace Sys2Proof.Machine

open Sys2Proof.Claims

@[simp] theorem RegPair.get_advance (p : RegPair) (s : State) : p.get s.advance = p.get s := by
  cases p <;> rfl

@[simp] theorem RegPair.get_raise (p : RegPair) (c : FaultCode) (s : State) :
    p.get (s.raise c) = p.get s := by
  cases p <;> rfl

@[simp] theorem RegPair.get_apply (p : RegPair) (a : EngineAct) (s t : State) :
    p.get (a.apply s t) = p.get t := by
  cases p <;> simp [RegPair.get]

/-- In a cycle without reset the register pairs, `PIN`, the buffer and the read data are as the
transaction left them: the engine writes none (40_register_access.md R136). -/
theorem step_registers {s t s' : State} (hr : s.input.rst = false)
    (ht : exec (fetch s) s = .next t) (h : step s = .next s') :
    (∀ p : RegPair, p.get s' = p.get t) ∧ s'.pin = t.pin ∧ s'.buf = t.buf ∧
      s'.rdata = t.rdata := by
  obtain ⟨_, u, hu, hcase⟩ := step_cases_no_reset hr h
  obtain rfl : t = u := by simpa using ht.symm.trans hu
  obtain ⟨_, rfl⟩ | ⟨_, a, _, rfl⟩ := hcase <;> simp

/-- A transaction that changes a register pair or the buffer runs outside `HALT` and does not
fault. -/
theorem exec_changes {α : Type} (g : State → α) (hdrive : ∀ v s, g (s.drive v) = g s)
    (hraise : ∀ c s, g (s.raise c) = g s) {i : Instr} {s t : State} (ht : exec i s = .next t)
    (hne : g t ≠ g s) : s.st ≠ .halt ∧ t.st ≠ .halt := by
  have hs : s.st ≠ .halt := by
    intro hs
    obtain rfl : _ = t := by simpa using (exec_in_halt hs i).symm.trans ht
    exact hne (hdrive ..)
  refine ⟨hs, fun hh => ?_⟩
  obtain ⟨c, _, rfl⟩ := exec_eq_raise_of_halts ht hs hh
  exact hne ((hraise ..).trans (hdrive ..))

/-- A `BDATA` access that does not fault has `BPTR` in the buffer (60_exceptions.md R191). -/
theorem bptr_lt_of_bdata {i : Instr} {s t : State} (hi : i = .rdBdata ∨ ∃ d, i = .wrBdata d)
    (ht : exec i s = .next t) (hs : s.st ≠ .halt) (hh : t.st ≠ .halt) :
    s.bptr.toNat < s.cfg.bufSize := by
  by_contra hout
  obtain rfl : _ = t := by
    simpa using (exec_bdata_outside hi hs (Nat.le_of_not_lt hout)).symm.trans ht
  exact hh rfl

theorem exec_bdata_bptr {i : Instr} {s t : State} (hi : i = .rdBdata ∨ ∃ d, i = .wrBdata d)
    (ht : exec i s = .next t) (hs : s.st ≠ .halt) (hh : t.st ≠ .halt) : t.bptr = s.bptr + 1 := by
  have hin := bptr_lt_of_bdata hi ht hs hh
  obtain rfl | ⟨d, rfl⟩ := hi
  · obtain rfl : _ = t := by simpa using (exec_rdBdata_inside hs hin).symm.trans ht
    rfl
  · obtain rfl : _ = t := by simpa using (exec_wrBdata_inside hs hin d).symm.trans ht
    rfl

/-- A pair keeps its value under every transaction but its own writes and, for `BPTR`, a `BDATA`
access. -/
theorem exec_get_of_not_own {p : RegPair} {i : Instr} {s t : State} (ht : exec i s = .next t)
    (hown : ¬∃ d, i = writeLow p d ∨ i = writeHigh p d)
    (hb : ¬(p = .bptr ∧ (i = .rdBdata ∨ ∃ d, i = .wrBdata d))) : p.get t = p.get s := by
  obtain ⟨_, _, _, _, _, _, _, _, haddr, hlen, hbptr, _⟩ := transactionFrames i s t ht
  have hlow d : i ≠ writeLow p d := fun h => hown ⟨d, .inl h⟩
  have hhigh d : i ≠ writeHigh p d := fun h => hown ⟨d, .inr h⟩
  cases p with
  | addr => exact haddr hlow hhigh
  | len => exact hlen hlow hhigh
  | bptr =>
    exact hbptr hlow hhigh (fun h => hb ⟨rfl, .inl h⟩) fun d h => hb ⟨rfl, .inr ⟨d, h⟩⟩

/-- What a transaction has to be to change a buffer byte (20_memory.md R72). -/
theorem exec_changes_byte {i : Instr} {s t : State} {a : Nat} (ht : exec i s = .next t)
    (hne : Memory.read a t.buf ≠ Memory.read a s.buf) :
    s.st ≠ .halt ∧ a = bdataAddress s ∧ a < s.cfg.bufSize ∧
      ∃ d, i = .wrBdata d ∧ Memory.read a t.buf = some d := by
  obtain ⟨hs, hh⟩ := exec_changes (fun u => Memory.read a u.buf) (by simp) (by simp) ht hne
  obtain ⟨_, _, _, _, _, _, _, _, _, _, _, hwrite, hother⟩ := transactionFrames i s t ht
  obtain ⟨d, rfl⟩ : ∃ d, i = .wrBdata d := by
    by_contra hno
    exact hne (hwrite (not_exists.1 hno) a)
  have ha : a = bdataAddress s := by
    by_contra ha
    exact hne (hother a ha)
  have hin := bptr_lt_of_bdata (.inr ⟨d, rfl⟩) ht hs hh
  obtain rfl : _ = t := by simpa using (exec_wrBdata_inside hs hin d).symm.trans ht
  subst ha
  exact ⟨hs, rfl, hin, d, rfl, Memory.read_write_same ..⟩

/-- Only an accepted start makes a block busy that was not (10_state.md R44). -/
theorem exec_raises_busy {i : Instr} {s t : State} (ht : exec i s = .next t)
    (hb : s.busy = false) (hb' : t.busy = true) :
    AcceptableGo s ∧ ∃ d, i = .wrCtrl d ∧ goBit d = true := by
  have hkept : t.st ≠ s.st := by
    intro hst
    rw [State.busy, hst, ← State.busy, hb] at hb'
    cases hb'
  rw [busy_iff] at hb'
  rcases exec_flags ht with ⟨_, _, hst | hhalt⟩ | ⟨_, d, ⟨_, _, _, _, hst⟩ | ⟨_, _, _, _, hst⟩ |
    ⟨_, _, _, _, _, _, hidle⟩ | ⟨hi, hgo, hidle, hlen, hpin, hfits, _⟩⟩
  · exact absurd hst hkept
  · simp [hhalt] at hb'
  · exact absurd hst hkept
  · exact absurd hst hkept
  · simp [hidle] at hb'
  · exact ⟨⟨hidle, one_le_len_iff.2 hlen, hpin, hfits⟩, d, hi, hgo⟩

/-- The engine step ends a transmission only at the end of the trailer (41_transmit_engine.md
R162). -/
theorem apply_busy {s : State} {a : EngineAct} (ha : engineAct s = .ok a) (hb : s.busy = true)
    (hb' : (a.apply s s).busy = false) :
    a = .trailEnd ∧ s.st = .trail ∧ s.cfg.trail - 1 ≤ s.tcnt := by
  cases a with
  | trailEnd => simpa using engineAct_cases ha
  | lastByte => cases hb'
  | hold | nextPhase | nextBit | nextByte | trailCount => cases hb.symm.trans hb'

end Sys2Proof.Machine
end

section
/-! PROOFS. The obligations about what changes a register pair, the buffer, `BUSY` and the pins
(10_state.md R37 to R39, R44, 20_memory.md R72, 41_transmit_engine.md R166): O20, O24, O41 and
O38. -/

namespace Sys2Proof.Machine

/-- Settles O20: the engine writes no pair, and a transaction that changes one does not fault. -/
theorem onlyItsTransactionsChangeARegisterPair :
    Obligations.OnlyItsTransactionsChangeARegisterPair := by
  intro s s' p h hr hne
  obtain ⟨_, t, ht, _⟩ := step_cases_no_reset hr h
  obtain ⟨hpair, _⟩ := step_registers hr ht h
  rw [hpair] at hne ⊢
  obtain ⟨hs, hh⟩ := exec_changes p.get (by simp) (by simp) ht hne
  refine ⟨hs, or_iff_not_imp_left.2 fun hown => ?_⟩
  obtain ⟨rfl, hb⟩ : p = .bptr ∧ (fetch s = .rdBdata ∨ ∃ d, fetch s = .wrBdata d) := by
    by_contra hb
    exact hne (exec_get_of_not_own ht hown hb)
  exact ⟨rfl, hb, exec_bdata_bptr hb ht hs hh⟩

/-- Settles O24: a reset keeps the buffer, the engine writes no byte, and of the transactions only a
`BDATA` write does. -/
theorem onlyBdataWritesChangeTheBuffer : Obligations.OnlyBdataWritesChangeTheBuffer := by
  intro s s' a h hne
  have hr : s.input.rst = false := by
    by_contra hr
    obtain rfl : _ = s' := by
      simpa using (step_reset (step_cases h).1 (by simpa using hr)).symm.trans h
    exact hne rfl
  obtain ⟨_, t, ht, _⟩ := step_cases_no_reset hr h
  obtain ⟨_, _, hbuf, _⟩ := step_registers hr ht h
  rw [hbuf] at hne ⊢
  exact ⟨hr, exec_changes_byte ht hne⟩

/-- Settles O41: the cycle of a block that is not busy is its transaction alone; that of a busy one
is a reset, a fault or an engine step. -/
theorem busyRisesAndFallsOnlyAsListed : Obligations.BusyRisesAndFallsOnlyAsListed := by
  intro s s' h
  refine ⟨fun hb hb' => ?_, fun hb hb' => ?_⟩
  · obtain ⟨hl, ⟨_, rfl⟩ | ⟨hr, t, ht, _⟩⟩ := step_cases h
    · cases hb'
    · obtain rfl : _ = s' := by simpa using (step_of_not_busy hl hr ht hb).symm.trans h
      exact ⟨hr, exec_raises_busy ht hb hb'⟩
  · obtain ⟨hr, _⟩ | hhalt | ⟨a, ha, ⟨_, hst, _⟩, hdone⟩ := step_engine_cases h hb
    · exact .inl hr
    · exact .inr (.inl ((fault_iff s').2 hhalt))
    · rw [State.busy, hst, ← State.busy] at hb'
      obtain ⟨hend, hs, htcnt⟩ := apply_busy ha hb hb'
      exact .inr (.inr ⟨hs, htcnt, hdone hend⟩)

/-- Settles O38: a high pin is the latched one. -/
theorem atMostOnePinIsHigh : Obligations.AtMostOnePinIsHigh := by
  intro s p q hp hq
  obtain ⟨_, hs, hp, _⟩ := (dout_iff s p).1 hp
  obtain ⟨_, _, hq, _⟩ := (dout_iff s q).1 hq
  exact ⟨hp.trans hq.symm, hp, (busy_iff s).2 (.inl hs)⟩

end Sys2Proof.Machine
end

section
/-! PROOFS. Host programs of two cycles, and hosts that are quiet for many (70_reset_and_hazards.md
R229, R233, R236). -/

namespace Sys2Proof.Machine

open Sys2Proof.Claims

theorem input_of_inputs {s : State} {x : Input} {rest : List Input} (h : s.inputs = x :: rest) :
    s.input = x := by
  rw [State.input, h]
  rfl

theorem fetch_of_inputs {s : State} {r : Bool} {i : Instr} {rest : List Input} (hi : i.wf = true)
    (h : s.inputs = ⟨r, encode i⟩ :: rest) : fetch s = i := by
  rw [fetch, input_of_inputs h, decodeOp_encode hi]

/-- A host that issues `i` and then the read `j`: the read answers, as `rdata` of the second cycle,
what it reads in the state after the first. -/
theorem read_after {s t : State} {i j : Instr} {rest : List Input} (hinv : Inv s)
    (h : s.inputs = ⟨false, encode i⟩ :: ⟨false, encode j⟩ :: rest) (hi : i.wf = true)
    (hj : j.wf = true) (ht : exec i s = .next t) (v : State → Byte)
    (hread : ∀ u, exec j u = .next (u.drive (v u))) :
    s.input.rst = false ∧ exec (fetch s) s = .next t ∧
      ∃ s₁ s₂, step s = .next s₁ ∧ runFor 2 s = .next s₂ ∧ s₂.rdata = v s₁ := by
  obtain ⟨s₁, h₁⟩ := step_answers hinv
  obtain ⟨s₂, h₂⟩ := step_answers (step_inv hinv h₁)
  have hin : s₁.inputs = ⟨false, encode j⟩ :: rest := by rw [step_inputs h₁, h]; rfl
  have hexec : exec (fetch s₁) s₁ = .next (s₁.drive (v s₁)) := by
    rw [fetch_of_inputs hj hin, hread]
  obtain ⟨_, _, _, hrdata⟩ := step_registers (by rw [input_of_inputs hin]) hexec h₂
  refine ⟨by rw [input_of_inputs h], by rw [fetch_of_inputs hi h, ht], s₁, s₂, h₁, ?_, hrdata⟩
  rw [runFor_succ h₁, runFor_succ h₂]
  rfl

theorem writeLow_wf (p : RegPair) (d : Byte) : (writeLow p d).wf = true := by cases p <;> rfl

theorem writeHigh_wf (p : RegPair) (d : Byte) : (writeHigh p d).wf = true := by cases p <;> rfl

theorem readLow_wf (p : RegPair) : (readLow p).wf = true := by cases p <;> rfl

theorem readHigh_wf (p : RegPair) : (readHigh p).wf = true := by cases p <;> rfl

/-- A `CTRL` write that does not fault gives `IRQ_EN` its bit (40_register_access.md R113). -/
theorem exec_wrCtrl_irqEn {s : State} {d : Byte} (hs : s.st ≠ .halt)
    (h : goBit d = false ∨ (s.st = .idle ∧ s.len.toNat = 0) ∨ AcceptableGo s) :
    ∃ t, exec (.wrCtrl d) s = .next t ∧ t.irqEn = irqEnBit d := by
  cases hd : goBit d with
  | false => exact ⟨_, exec_ctrlWithoutGo hs hd, rfl⟩
  | true =>
    obtain ⟨hidle, hlen⟩ | hgo := h.resolve_left (by simp [hd])
    · exact ⟨_, exec_zeroGo hd hidle hlen, rfl⟩
    · exact ⟨_, exec_acceptableGo hd hgo, rfl⟩

/-- The engine state and `DONE` decide `STATUS` (10_state.md R35, R44, R46). -/
theorem statusByte_of_st {s : State} {e : Engine} {b : Bool} (hst : s.st = e) (hd : s.done = b) :
    statusByte s = (0 : BitVec 5) ++ BitVec.ofBool (e == .halt) ++ BitVec.ofBool b ++
      BitVec.ofBool (e == .shift || e == .trail) := by
  rw [statusByte, State.fault, State.busy, hst, hd]

/-- A host that issues `i` in `IDLE` and then reads `STATUS` gets the flags that the transaction
left: the engine holds. -/
theorem status_after {s t : State} {i : Instr} {rest : List Input} (hinv : Inv s)
    (hs : s.st = .idle) (h : s.inputs = ⟨false, encode i⟩ :: ⟨false, encode .rdStatus⟩ :: rest)
    (hi : i.wf = true) (ht : exec i s = .next t) :
    ∃ s', runFor 2 s = .next s' ∧ s'.rdata = statusByte t := by
  obtain ⟨hr, hexec, s₁, s₂, h₁, h₂, hv⟩ := read_after hinv h hi rfl ht statusByte fun _ => rfl
  obtain rfl : _ = s₁ := by
    simpa using (step_of_not_busy hinv.1 hr hexec (not_busy_of_idle hs)).symm.trans h₁
  exact ⟨s₂, h₂, hv⟩

/-- What a quiet cycle is not (70_reset_and_hazards.md R233). -/
theorem quiet_excludes {x : Input} (h : x.quiet = true) :
    x.rst = false ∧ (∀ d, decodeOp x.op = .wrCtrl d → goBit d = false) ∧
      decodeOp x.op ≠ .rdBdata ∧ ∀ d, decodeOp x.op ≠ .wrBdata d := by
  rw [Input.quiet, Bool.and_eq_true, Bool.not_eq_true'] at h
  obtain ⟨hr, h⟩ := h
  refine ⟨hr, fun d hd => ?_, fun hd => ?_, fun d hd => ?_⟩
  · simpa [hd] using h
  · simp [hd] at h
  · simp [hd] at h

theorem transactionFault_of_quiet {s : State} (h : s.input.quiet = true) :
    transactionFault (fetch s) s = none := by
  obtain ⟨_, hgo, hread, hwrite⟩ := quiet_excludes h
  refine Option.eq_none_iff_forall_ne_some.2 fun c hc => ?_
  rcases transactionFault_eq_some hc with ⟨d, hd⟩ | hd | ⟨d, hd⟩
  · rw [hd, transactionFault_wrCtrl_eq_some, hgo d hd] at hc
    cases hc.1
  · exact hread hd
  · exact hwrite d hd

theorem quietFor_succ {k : Nat} {s s' : State} (h : QuietFor (k + 1) s) (hs : step s = .next s') :
    s.input.quiet = true ∧ QuietFor k s' := by
  obtain ⟨hlen, hall⟩ := h
  have hin := step_inputs hs
  cases hi : s.inputs with
  | nil => simp [hi] at hlen
  | cons x rest =>
    rw [hi] at hlen hall hin
    rw [List.take_succ_cons, List.all_cons, Bool.and_eq_true] at hall
    rw [input_of_inputs hi, QuietFor, hin]
    exact ⟨hall.1, by simpa using hlen, hall.2⟩

/-- A quiet cycle neither faults nor resets, and changes no buffer byte. -/
theorem quiet_cycle {s s' : State} (hinv : Inv s) (hs : s.st ≠ .halt)
    (hq : s.input.quiet = true) (h : step s = .next s') :
    undisturbed s = true ∧ s'.st ≠ .halt ∧ s'.buf = s.buf := by
  obtain ⟨hr, _, _, hno⟩ := quiet_excludes hq
  obtain ⟨_, t, ht, _⟩ := step_cases_no_reset hr h
  have hh := exec_not_halted_of_no_fault ht hs (transactionFault_of_quiet hq)
  obtain ⟨_, hbuf', _⟩ := step_inv hinv h
  obtain ⟨_, hbuf, _⟩ := hinv
  rw [step_cfg h] at hbuf'
  refine ⟨by simp [undisturbed, hr, ht, hh], fun hh' => hh ((step_halt_iff hr ht h).1 hh'),
    Memory.ext_of_wfFrom _ _ hbuf' hbuf fun a => ?_⟩
  by_contra hne
  obtain ⟨_, _, _, _, d, hd, _⟩ := onlyBdataWritesChangeTheBuffer s s' a h hne
  exact hno d hd

/-- A quiet host leaves an idle block idle. -/
theorem quiet_idle {s s' : State} (hinv : Inv s) (hs : s.st = .idle) (hq : s.input.quiet = true)
    (h : step s = .next s') : s'.st = .idle := by
  obtain ⟨_, hs', _⟩ := quiet_cycle hinv (by simp [hs]) hq h
  refine idle_of_not_busy hs' ?_
  by_contra hb
  obtain ⟨_, _, d, hf, hgo⟩ :=
    (busyRisesAndFallsOnlyAsListed s s' h).1 (not_busy_of_idle hs) (by simpa using hb)
  obtain ⟨_, hquiet, _⟩ := quiet_excludes hq
  exact absurd (hquiet d hf) (by simp [goBit, hgo])

end Sys2Proof.Machine
end

section
/-! PROOFS. The obligations about host programs of two cycles and about quiet hosts
(70_reset_and_hazards.md R229, R233, R236): O19, O52 and O51. -/

namespace Sys2Proof.Machine

/-- Settles O19: the engine writes no register, so the read finds what the write left. -/
theorem writtenRegisterReadsBack : Obligations.WrittenRegisterReadsBack := by
  intro s p d rest hinv hs
  refine ⟨fun h => ?_, fun h => ?_, fun h => ?_, fun hok h => ?_⟩
  · obtain ⟨hr, ht, s₁, s₂, h₁, h₂, hv⟩ :=
      read_after hinv h (writeLow_wf p d) (readLow_wf p) (exec_writeLow p hs d) _ (exec_readLow p)
    obtain ⟨hpair, _⟩ := step_registers hr ht h₁
    exact ⟨s₂, h₂, by rw [hv, hpair, RegPair.get_set, lowByte_joinBytes]⟩
  · obtain ⟨hr, ht, s₁, s₂, h₁, h₂, hv⟩ := read_after hinv h (writeHigh_wf p d) (readHigh_wf p)
      (exec_writeHigh p hs d) _ (exec_readHigh p)
    obtain ⟨hpair, _⟩ := step_registers hr ht h₁
    exact ⟨s₂, h₂, by rw [hv, hpair, RegPair.get_set, highByte_joinBytes]⟩
  · obtain ⟨hr, ht, s₁, s₂, h₁, h₂, hv⟩ :=
      read_after hinv h rfl rfl (exec_wrPinsel hs d) pinselByte fun _ => rfl
    obtain ⟨_, hpin, _⟩ := step_registers hr ht h₁
    exact ⟨s₂, h₂, by rw [hv, pinselByte_toNat, hpin]; exact pinField_toNat d⟩
  · obtain ⟨t, hexec, hirq⟩ := exec_wrCtrl_irqEn hs hok
    obtain ⟨hr, ht, s₁, s₂, h₁, h₂, hv⟩ := read_after hinv h rfl rfl hexec ctrlByte fun _ => rfl
    obtain ⟨hirq', _⟩ := step_flags hr ht h₁
    refine ⟨s₂, h₂, fun i => ?_⟩
    rw [hv, ctrlByte_getLsbD, hirq', hirq]
    rfl

/-- Settles O52: the flags of the start's own state. -/
theorem statusInTheCycleAfterGo : Obligations.StatusInTheCycleAfterGo := by
  intro s d rest hinv hs hd h
  refine ⟨fun hgo => ?_, fun hlen => ?_⟩
  · obtain ⟨s', hrun, hv⟩ := status_after hinv hs h rfl (exec_acceptableGo hd hgo)
    exact ⟨s', hrun, hv.trans ((statusByte_of_st (start_st _) (start_done _)).trans (by decide))⟩
  · obtain ⟨s', hrun, hv⟩ := status_after hinv hs h rfl (exec_zeroGo hd hs hlen)
    have hidle : (zeroStart ((s.drive 0).setIrqEn (irqEnBit d))).st = .idle := hs
    exact ⟨s', hrun, hv.trans ((statusByte_of_st hidle (zeroStart_done _)).trans (by decide))⟩

/-- Settles O51, cycle by cycle: under the invariants no cycle stops. -/
theorem quietHostDisturbsNothing : Obligations.QuietHostDisturbsNothing := by
  intro s k hinv hs hq
  induction k generalizing s with
  | zero => exact ⟨rfl, s, rfl, rfl⟩
  | succ k ih =>
    obtain ⟨s₁, h⟩ := step_answers hinv
    obtain ⟨hq₁, hqk⟩ := quietFor_succ hq h
    obtain ⟨hu, hs₁, hbuf₁⟩ := quiet_cycle hinv hs hq₁ h
    obtain ⟨huk, s', hrun, hbuf⟩ := ih s₁ (step_inv hinv h) hs₁ hqk
    exact ⟨by simp [undisturbedFor, hu, h, huk], s', (runFor_succ h k).trans hrun,
      hbuf.trans hbuf₁⟩

end Sys2Proof.Machine
end

section
/-! PROOFS. The decoder of a waveform against the waveform of bytes (41_transmit_engine.md R170). -/

namespace Sys2Proof.Machine

/-- Bit slots one after the other are one run each. -/
theorem runsFrom_slots {c : Config} (hl : c.Legal) (bits w : List Bool) :
    runsFrom 0 (bits.flatMap (slotWave c) ++ w) = bits.map (highCycles c) ++ runsFrom 0 w := by
  induction bits with
  | nil => rfl
  | cons v bits ih =>
    rw [List.flatMap_cons, List.append_assoc, runsFrom_slot hl, ih, List.map_cons,
      List.cons_append]

theorem runBit_highCycles {c : Config} (hl : c.Legal) (v : Bool) :
    runBit c (highCycles c v) = v := by
  obtain ⟨_, hlt, _⟩ := hl
  cases v
  · simp [runBit, highCycles]
  · simp [runBit, highCycles, hlt]

theorem bitsToBytes_byteBits (bytes : List Byte) :
    bitsToBytes (bytes.flatMap byteBits) = bytes := by
  induction bytes with
  | nil => rfl
  | cons v bytes ih =>
    rw [List.flatMap_cons]
    show bitsByte .. :: bitsToBytes (bytes.flatMap byteBits) = _
    rw [ih, bitsByte_byteBits]

theorem highRuns_transmissionWave {c : Config} (hl : c.Legal) (bytes : List Byte) :
    highRuns (transmissionWave c bytes) = (bytes.flatMap byteBits).map (highCycles c) := by
  have hslots : bytes.flatMap (byteWave c) = (bytes.flatMap byteBits).flatMap (slotWave c) :=
    List.flatMap_assoc.symm
  have hlow : runsFrom 0 (List.replicate c.trail false) = [] := by
    simpa [runsFrom] using runsFrom_low c.trail []
  rw [highRuns, transmissionWave, hslots, runsFrom_slots hl, hlow, List.append_nil]

theorem decodeWave_transmissionWave {c : Config} (hl : c.Legal) (bytes : List Byte) :
    decodeWave c (transmissionWave c bytes) = bytes := by
  have hbits : runBit c ∘ highCycles c = id := funext (runBit_highCycles hl)
  rw [decodeWave, highRuns_transmissionWave hl, List.map_map, hbits, List.map_id,
    bitsToBytes_byteBits]

end Sys2Proof.Machine
end

section
/-! PROOFS. The waveform of a transmission that nothing cuts off, from the places it goes through
(41_transmit_engine.md R164 to R166). -/

namespace Sys2Proof.Machine

/-- The one drop point of a bit slot, that of its bit (41_transmit_engine.md R155). -/
theorem slotLevel_eq {c : Config} (hl : c.Legal) (p : Nat) (v : Bool) :
    (decide (p < c.t0h) || (decide (p < c.t1h) && v)) =
      decide (p < if v = true then c.t1h else c.t0h) := by
  obtain ⟨_, hlt, _⟩ := hl
  cases v with
  | false => simp
  | true =>
    rw [Bool.and_true, ← Bool.decide_or, if_pos rfl]
    congr 1
    rw [eq_iff_iff]
    omega

theorem map_range_low {n : Nat} {f : Nat → Bool} (h : ∀ k, k < n → f k = false) :
    (List.range n).map f = List.replicate n false := by
  rw [List.map_congr_left fun k hk => h k (List.mem_range.1 hk), List.map_const', List.length_range]

variable {s t u : State}

theorem at_bit {j b p k : Nat} (hj : j < s.len.toNat) (hb : b < 8) (hp : p < s.cfg.tbit)
    (hk : k = s.cfg.tbit * (8 * j + b) + p) (h : At s u k) : AtBit s u j b p := by
  have hlt := place_lt hj hb hp
  subst hk
  rcases h with ⟨j', b', p', hj', hb', hp', hk, h⟩ | ⟨q, _, hk, _⟩ | ⟨hk, _⟩
  · obtain ⟨rfl, rfl, rfl⟩ := place_unique hp hp' hb hb' hk
    exact h
  · omega
  · rw [busyCycles] at hk
    omega

theorem at_trail {q k : Nat} (hq : q < s.cfg.trail) (hk : k = 8 * s.cfg.tbit * s.len.toNat + q)
    (h : At s u k) : AtTrail s u q := by
  subst hk
  rcases h with ⟨j, b, p, hj, hb, hp, hk, _⟩ | ⟨q', _, hk, h⟩ | ⟨hk, _⟩
  · have hlt := place_lt hj hb hp
    omega
  · obtain rfl : q = q' := by omega
    exact h
  · rw [busyCycles] at hk
    omega

theorem at_end {k : Nat} (hk : k = busyCycles s.cfg s.len.toNat) (h : At s u k) : AtEnd s u := by
  subst hk
  rw [At, busyCycles] at h
  rcases h with ⟨j, b, p, hj, hb, hp, hk, _⟩ | ⟨q, hq, hk, _⟩ | ⟨_, h⟩
  · have hlt := place_lt hj hb hp
    omega
  · omega
  · exact h

/-- Nowhere in a transmission is a pin high but the selected one (41_transmit_engine.md R166). -/
theorem at_dout_other {k x : Nat} (hx : x ≠ s.pin.toNat) (h : At s u k) : u.dout x = false := by
  refine dout_other fun hs => ?_
  rcases h with ⟨_, _, _, _, _, _, _, h⟩ | ⟨_, _, _, h⟩ | ⟨_, h⟩
  · rwa [h.going.pin]
  · cases hs.symm.trans h.st
  · cases hs.symm.trans h.st

/-- The run from the start command itself, up to one cycle further than the one from its next
state. -/
theorem run_from_start {k m : Nat} (hl : s.cfg.Legal) (hs : StartsIn s) (ht : step s = .next t)
    (hk : k ≤ busyCycles s.cfg s.len.toNat) (hu : undisturbedFor k t = true) (hm : m ≤ k + 1) :
    ∃ w, runFor m s = .next w := by
  cases m with
  | zero => exact ⟨s, rfl⟩
  | succ m =>
    obtain ⟨w, hw, _⟩ := at_run hl hs ht m (by omega) (undisturbedFor_le (by omega) hu)
    exact ⟨w, (runFor_succ ht m).trans hw⟩

section uncut

variable (hl : s.cfg.Legal) (hs : StartsIn s) (ht : step s = .next t)
  (hu : undisturbedFor (busyCycles s.cfg s.len.toNat) t = true)

include hl hs ht hu

theorem at_run_uncut {k : Nat} (hk : k ≤ busyCycles s.cfg s.len.toNat) :
    ∃ u, runFor k t = .next u ∧ At s u k :=
  at_run hl hs ht k hk (undisturbedFor_le hk hu)

theorem levelAt_bit {bytes : List Byte} (hheld : HeldAtLoad s bytes)
    (hlen : bytes.length = s.len.toNat) {j b p : Nat} (hj : j < bytes.length) (hb : b < 8)
    (hp : p < s.cfg.tbit) :
    levelAt s.pin.toNat t (s.cfg.tbit * (8 * j + b) + p) =
      (decide (p < s.cfg.t0h) || (decide (p < s.cfg.t1h) && bytes[j].getLsbD (7 - b))) := by
  have hlt := place_lt (hlen ▸ hj) hb hp
  obtain ⟨u, hrun, hat⟩ := at_run_uncut hl hs ht hu (k := s.cfg.tbit * (8 * j + b) + p)
    (by rw [busyCycles]; omega)
  obtain ⟨w, hw, hv⟩ := hheld j hj
  obtain ⟨_, _, _, _, hpin, _⟩ := hs
  rw [levelAt_eq hrun]
  exact atBit_dout hpin (at_bit (hlen ▸ hj) hb hp rfl hat) hw hv hb

theorem levelAt_trail {q : Nat} (hq : q < s.cfg.trail) (x : Nat) :
    levelAt x t (8 * s.cfg.tbit * s.len.toNat + q) = false := by
  obtain ⟨u, hrun, hat⟩ := at_run_uncut hl hs ht hu (k := 8 * s.cfg.tbit * s.len.toNat + q)
    (by rw [busyCycles]; omega)
  rw [levelAt_eq hrun]
  refine dout_other fun hshift => ?_
  cases hshift.symm.trans (at_trail hq rfl hat).st

theorem pinTrace_uncut (x : Nat) :
    pinTrace x (busyCycles s.cfg s.len.toNat) t =
      (List.range (busyCycles s.cfg s.len.toNat)).map (levelAt x t) :=
  pinTrace_eq_map fun _ hk =>
    let ⟨u, hrun, _⟩ := at_run_uncut hl hs ht hu hk.le
    ⟨u, hrun⟩

/-- The bit slots of the bytes, in address order and most significant bit first. -/
theorem levels_of_bytes {bytes : List Byte} (hheld : HeldAtLoad s bytes)
    (hlen : bytes.length = s.len.toNat) :
    (List.range (8 * s.cfg.tbit * s.len.toNat)).map (levelAt s.pin.toNat t) =
      bytes.flatMap (byteWave s.cfg) := by
  rw [Nat.mul_comm 8, Nat.mul_assoc, range_mul_map, range_mul_flatMap, flatMap_eq_range, hlen]
  refine flatMap_congr_left fun j hj => ?_
  have hj : j < bytes.length := by simpa [hlen] using hj
  rw [byteWave_eq_flatMap]
  refine flatMap_congr_left fun b hb => ?_
  rw [slotWave_eq_map hl]
  refine List.map_congr_left fun p hp => ?_
  rw [levelAt_bit hl hs ht hu hheld hlen hj (List.mem_range.1 hb) (List.mem_range.1 hp),
    List.getD_eq_getElem _ _ hj]

theorem pinTrace_selected {bytes : List Byte} (hheld : HeldAtLoad s bytes)
    (hlen : bytes.length = s.len.toNat) :
    pinTrace s.pin.toNat (busyCycles s.cfg s.len.toNat) t = transmissionWave s.cfg bytes := by
  have htrail : (List.range s.cfg.trail).map
      (levelAt s.pin.toNat t ∘ (8 * s.cfg.tbit * s.len.toNat + ·)) =
        List.replicate s.cfg.trail false :=
    map_range_low fun _ hq => levelAt_trail hl hs ht hu hq _
  rw [pinTrace_uncut hl hs ht hu, busyCycles, List.range_add, List.map_append, List.map_map,
    htrail, levels_of_bytes hl hs ht hu hheld hlen, transmissionWave]

theorem pinTrace_other {x : Nat} (hx : x ≠ s.pin.toNat) :
    pinTrace x (busyCycles s.cfg s.len.toNat) t =
      List.replicate (busyCycles s.cfg s.len.toNat) false := by
  rw [pinTrace_uncut hl hs ht hu]
  refine map_range_low fun k hk => ?_
  obtain ⟨u, hrun, hat⟩ := at_run_uncut hl hs ht hu hk.le
  rw [levelAt_eq hrun, at_dout_other hx hat]

end uncut

/-- Under a quiet host an idle block keeps every pin low. -/
theorem pinTrace_quiet_idle (x : Nat) {k : Nat} {s : State} (hinv : Inv s) (hs : s.st = .idle)
    (hq : QuietFor k s) : pinTrace x k s = List.replicate k false := by
  induction k generalizing s with
  | zero => rfl
  | succ k ih =>
    obtain ⟨s', h⟩ := step_answers hinv
    obtain ⟨hq₁, hqk⟩ := quietFor_succ hq h
    rw [pinTrace_succ h, dout_of_not_busy (not_busy_of_idle hs),
      ih (step_inv hinv h) (quiet_idle hinv hs hq₁ h) hqk, List.replicate_succ]

end Sys2Proof.Machine
end

section
/-! PROOFS. The obligations about transmissions (41_transmit_engine.md R164 to R170): O53, O54, O55
and O56. -/

namespace Sys2Proof.Machine

/-- Settles O53: the places of the transmission, read off one by one. -/
theorem transmissionTimeline : Obligations.TransmissionTimeline := by
  intro s hinv hs
  have hl : s.cfg.Legal := hinv.1
  obtain ⟨t, ht⟩ := step_answers hinv
  refine ⟨t, ht, fun k hu => ⟨fun j b p hj hb hp hk => ?_, fun q hq hk => ?_, fun hk => ?_⟩⟩
  · have hlt := place_lt hj hb hp
    have hle : k ≤ busyCycles s.cfg s.len.toNat := by
      rw [busyCycles]
      omega
    obtain ⟨u, hrun, hat⟩ := at_run hl hs ht k hle hu
    have hbit := at_bit hj hb hp hk hat
    have hload : 8 * s.cfg.tbit * j ≤ k + 1 := by
      have : s.cfg.tbit * (8 * j + b) = 8 * s.cfg.tbit * j + s.cfg.tbit * b := by ring
      omega
    obtain ⟨w, hw⟩ := run_from_start hl hs ht hle hu hload
    obtain ⟨_, _, _, _, hpin, _⟩ := hs
    exact ⟨u, hrun, hbit.st, hbit.ph, hbit.nb, hbit.rem, hbit.ptr, hbit.going.pin,
      (busy_iff u).2 (.inl hbit.st), hbit.going.done, w, hw, fun v hv =>
        (atBit_dout hpin hbit hw hv hb).trans (slotLevel_eq hl p _)⟩
  · obtain ⟨u, hrun, hat⟩ := at_run hl hs ht k (by rw [busyCycles]; omega) hu
    have htrail := at_trail hq hk hat
    exact ⟨u, hrun, htrail.st, htrail.tcnt, (busy_iff u).2 (.inr htrail.st), htrail.going.done⟩
  · obtain ⟨u, hrun, hat⟩ := at_run hl hs ht k hk.le hu
    have hend := at_end hk hat
    exact ⟨u, hrun, hend.st, not_busy_of_idle hend.st, hend.done⟩

/-- Settles O54: the levels of the selected pin, slot by slot, and of the others. -/
theorem transmissionWaveform : Obligations.TransmissionWaveform :=
  fun _ _ _ hinv hs hlen hheld ht hu =>
    ⟨pinTrace_selected hinv.1 hs ht hu hheld hlen, fun _ => pinTrace_other hinv.1 hs ht hu⟩

/-- Settles O55: each bit slot is one run, whose length tells its bit. -/
theorem decoderInvertsTheWaveform : Obligations.DecoderInvertsTheWaveform :=
  fun _ bytes hl => decodeWave_transmissionWave hl bytes

/-- Settles O56: the waveform is that of the bytes; without bytes it is the trailer's low cycles,
which stand for none. -/
theorem decoderRecoversTheTransmission : Obligations.DecoderRecoversTheTransmission := by
  refine ⟨fun s t bytes hinv hs hlen hheld ht hu => ?_,
    fun s t d p hinv hs hr hf hd hlen h hq => ?_⟩
  · rw [pinTrace_selected hinv.1 hs ht hu hheld hlen, decodeWave_transmissionWave hinv.1]
  · have hexec : exec (fetch s) s = .next (zeroStart ((s.drive 0).setIrqEn (irqEnBit d))) := by
      rw [hf, exec_zeroGo hd hs hlen]
    have hinv' := step_inv hinv h
    obtain rfl : _ = t := by
      simpa using (step_of_not_busy hinv.1 hr hexec (not_busy_of_idle hs)).symm.trans h
    rw [pinTrace_quiet_idle p hinv' hs hq, busyCycles, Nat.mul_zero, Nat.zero_add]
    exact decodeWave_transmissionWave hinv.1 []

end Sys2Proof.Machine
end

section
/-! PROOFS. The obligations about the default configuration and about platforms of several blocks
(00_scope.md R10, 60_exceptions.md R208): O57 and O58. -/

namespace Sys2Proof.Machine

theorem slotWave_length {c : Config} (hl : c.Legal) (v : Bool) :
    (slotWave c v).length = c.tbit := by
  have := highCycles_lt hl v
  rw [slotWave, List.length_append, List.length_replicate, List.length_replicate]
  omega

/-- A byte takes eight bit slots (41_transmit_engine.md R168). -/
theorem byteWave_length {c : Config} (hl : c.Legal) (v : Byte) :
    (byteWave c v).length = 8 * c.tbit := by
  rw [byteWave, List.length_flatMap, List.map_congr_left fun b _ => slotWave_length hl b,
    List.map_const', List.sum_replicate, smul_eq_mul]
  rfl

/-- Settles O57: the numbers of the defaults. -/
theorem defaultsConform : Obligations.DefaultsConform := by
  have hl : Config.default.Legal := by decide
  exact ⟨hl, by decide, rfl, rfl, byteWave_length hl⟩

/-- Settles O58: each block makes its own step, and no step changes a configuration, where the
number stands. -/
theorem instancesShareNothing : Obligations.InstancesShareNothing := by
  refine ⟨fun blocks i j u hij => ?_, fun s s' h => ⟨step_cfg h, fun a => ?_⟩,
    fun blocks blocks' hd h => ?_⟩
  · rw [platformStep_getElem?, platformStep_getElem?, List.getElem?_set_ne hij.symm]
  · rw [hostAddress, step_cfg h, hostAddress]
  · have hinst : blocks'.map (fun s => s.cfg.inst) = blocks.map fun s => s.cfg.inst := by
      simpa [Function.comp_def] using congrArg (List.map Config.inst) (platformStep_cfg h)
    rwa [DistinctInstances, hinst]

end Sys2Proof.Machine
end
